-- ==== Sys2Proof/Config.lean ====
section
/-! DEFINITION. The parameters of one engine instance (spec/00_scope.md R7): how many registers, lanes, memory bytes
and program words it has. They are fixed for the life of an engine; a state carries them, and no step changes them. -/

namespace Sys2Proof

/-- The parameters `N`, `L`, `M` and `PROG_CAP` (R7). `LANE_BITS` and `IMM_BITS` are fixed at 32 and are the width of
`Sys2Proof.Word`. -/
structure Params where
  /-- `N`, NUM_REGS: number of vector registers, and of masks. -/
  numRegs : Nat
  /-- `L`, NUM_LANES: number of lanes per register, and bits per mask. -/
  numLanes : Nat
  /-- `M`, MEM_BYTES: size of the memory in bytes. -/
  memBytes : Nat
  /-- `PROG_CAP`: most instructions the program store holds. -/
  progCap : Nat
  deriving DecidableEq, Repr

/-- The ranges R7 gives the parameters. -/
def Params.legal (p : Params) : Bool :=
  decide (1 ≤ p.numRegs) && decide (p.numRegs ≤ 2 ^ 31) && decide (1 ≤ p.numLanes) &&
    decide (1 ≤ p.memBytes) && decide (p.memBytes ≤ 2 ^ 31) &&
    decide (1 ≤ p.progCap) && decide (p.progCap ≤ 2 ^ 32 - 1)

/-- The instance `State.reset` describes: the reference examples `N = 32`, `L = 32`, `M = 2^30` of R7.
DESIGN CHOICE (entries 1 and 2): the spec gives the three only as unaudited examples and leaves `PROG_CAP` OPEN; the
model takes the largest `PROG_CAP` R7 allows. No statement rests on these numbers. -/
def Config.reference : Params :=
  { numRegs := 32, numLanes := 32, memBytes := 2 ^ 30, progCap := 2 ^ 32 - 1 }

end Sys2Proof
end

