-- ==== Sys2Proof/Word.lean ====
section
/-! DEFINITION. The word types and their plainest readings (spec/00_scope.md R9), and the two small field types an
instruction carries: a data-type tag (R66) and a source operand (R64, R65). -/

namespace Sys2Proof

/-- A memory byte (R34). -/
abbrev Byte := BitVec 8

/-- A 32-bit pattern: a lane value, an immediate, a register index field, the run cursor (R9, R20, R28). -/
abbrev Word := BitVec 32

/-- A 128-bit instruction word (R61). -/
abbrev IWord := BitVec 128

/-- `sint(v)`: the integer a 32-bit pattern denotes in two's complement (R9). -/
def sint (v : Word) : Int := v.toInt

/-- `uint(v)`: the integer a 32-bit pattern denotes unsigned (R9). -/
def uint (v : Word) : Nat := v.toNat

/-- `wrap32(z)`: the 32-bit pattern whose `uint` is `z mod 2^32` (R9). -/
def wrap32 (z : Int) : Word := BitVec.ofInt 32 z

/-- The closed set of data-type tags, in the order of their codes 0 to 7 (R66). The tag is inert. -/
inductive DType where
  | s8 | u8 | s16 | u16 | s32 | u32 | f16 | f32
  deriving DecidableEq, Repr

/-- A source operand: a register index field (`I = 0`, R65) or an immediate (`I = 1`, R64). Both carry the whole
32-bit field: any pattern is a legal immediate, and an index is checked only when the instruction runs (R84). -/
inductive Src where
  | reg (f : Word)
  | imm (v : Word)
  deriving DecidableEq, Repr

end Sys2Proof
end

