-- ==== Sys2Proof/Syntax.lean ====
section
/-! DEFINITION. The instruction set, one constructor per row of spec/opcode_table.json (spec/30_encoding.md R60, R71).
Every instruction has the one format REC with every field present (R63): tag, destination, two sources. -/

namespace Sys2Proof

/-- The closed opcode set (R60): seven executable opcodes, six declared without semantics (R140), three unrecognised
opcode values (R141). Fields: data-type tag `t`, destination index field `d`, sources `a` (SRC1) and `b` (SRC2). -/
inductive Instr where
  | mov (t : DType) (d : Word) (a b : Src)
  | add (t : DType) (d : Word) (a b : Src)
  | sub (t : DType) (d : Word) (a b : Src)
  | mul (t : DType) (d : Word) (a b : Src)
  | div (t : DType) (d : Word) (a b : Src)
  | load (t : DType) (d : Word) (a b : Src)
  | store (t : DType) (d : Word) (a b : Src)
  | and (t : DType) (d : Word) (a b : Src)
  | or (t : DType) (d : Word) (a b : Src)
  | xor (t : DType) (d : Word) (a b : Src)
  | not (t : DType) (d : Word) (a b : Src)
  | shl (t : DType) (d : Word) (a b : Src)
  | shr (t : DType) (d : Word) (a b : Src)
  | opc13 (t : DType) (d : Word) (a b : Src)
  | opc14 (t : DType) (d : Word) (a b : Src)
  | opc15 (t : DType) (d : Word) (a b : Src)
  deriving DecidableEq, Repr

/-- The data-type tag of an instruction (R66). -/
def Instr.dtype : Instr → DType
  | .mov t _ _ _ | .add t _ _ _ | .sub t _ _ _ | .mul t _ _ _ | .div t _ _ _ | .load t _ _ _ | .store t _ _ _
  | .and t _ _ _ | .or t _ _ _ | .xor t _ _ _ | .not t _ _ _ | .shl t _ _ _ | .shr t _ _ _
  | .opc13 t _ _ _ | .opc14 t _ _ _ | .opc15 t _ _ _ => t

/-- The DST field (R61): always a register index (R65). -/
def Instr.dst : Instr → Word
  | .mov _ d _ _ | .add _ d _ _ | .sub _ d _ _ | .mul _ d _ _ | .div _ d _ _ | .load _ d _ _ | .store _ d _ _
  | .and _ d _ _ | .or _ d _ _ | .xor _ d _ _ | .not _ d _ _ | .shl _ d _ _ | .shr _ d _ _
  | .opc13 _ d _ _ | .opc14 _ d _ _ | .opc15 _ d _ _ => d

/-- The SRC1 field with its flag I1 (R61). -/
def Instr.src1 : Instr → Src
  | .mov _ _ a _ | .add _ _ a _ | .sub _ _ a _ | .mul _ _ a _ | .div _ _ a _ | .load _ _ a _ | .store _ _ a _
  | .and _ _ a _ | .or _ _ a _ | .xor _ _ a _ | .not _ _ a _ | .shl _ _ a _ | .shr _ _ a _
  | .opc13 _ _ a _ | .opc14 _ _ a _ | .opc15 _ _ a _ => a

/-- The SRC2 field with its flag I2 (R61). -/
def Instr.src2 : Instr → Src
  | .mov _ _ _ b | .add _ _ _ b | .sub _ _ _ b | .mul _ _ _ b | .div _ _ _ b | .load _ _ _ b | .store _ _ _ b
  | .and _ _ _ b | .or _ _ _ b | .xor _ _ _ b | .not _ _ _ b | .shl _ _ _ b | .shr _ _ _ b
  | .opc13 _ _ _ b | .opc14 _ _ _ b | .opc15 _ _ _ b => b

end Sys2Proof
end

