-- ==== Sys2Proof/WellFormed.lean ====
section
/-! DEFINITION. Two checks. A WORD is well-formed when its reserved bits are zero and its data-type code is one of the
closed set (spec/30_encoding.md R67). An INSTRUCTION is valid for an engine of `n` registers when every register-form
field names one of them (R65; spec/40_execution.md R84 applies that test when the instruction runs). A term of `Instr`
is otherwise well-formed by its type: it has no reserved bits and its tag is one of the eight. -/

namespace Sys2Proof

/-- R67: `(W0 & 0xFFFFFC80) = 0`. The opcode is not checked: every opcode value is well-formed. -/
def wordWellFormed (iw : IWord) : Bool :=
  (iw.extractLsb' 0 32 &&& 0xFFFFFC80#32) == 0#32

/-- R65: a register-form source is valid if its index is below `n`; an immediate always is (R85). -/
def Src.validFor (n : Nat) : Src → Bool
  | .reg f => decide (uint f < n)
  | .imm _ => true

/-- R65, R84: DST, and each source in register form, names one of the `n` registers. The opcode plays no part. -/
def Instr.validFor (n : Nat) (i : Instr) : Bool :=
  decide (uint i.dst < n) && i.src1.validFor n && i.src2.validFor n

end Sys2Proof
end

