-- ==== Sys2Proof/Decode.lean ====
section
/-! DEFINITION. The instruction word (spec/30_encoding.md R61, R62, R66, R70): the decoder, total on any word and on any
bytes and rejecting by name, and after it the encoder, written from the same tables. -/

namespace Sys2Proof

/-- Why a word, or a string of bytes, is not an instruction. -/
inductive DecodeError where
  /-- RSV, `W0[31:10]`, is not zero (R67). -/
  | reservedBits
  /-- The data-type code is 8 to 15 (R66, R67). -/
  | dtypeOutsideSet
  /-- Fewer than 16 bytes are left (R62, R69: every word is 16 bytes). -/
  | tooShort
  deriving DecidableEq, Repr

/-- The fields of a word as R70 reads them: every bit of the word is in exactly one of them. -/
structure Fields where
  opc : BitVec 4
  dtype : BitVec 4
  i1 : Bool
  i2 : Bool
  rsv : BitVec 22
  dst : Word
  src1 : Word
  src2 : Word
  deriving DecidableEq, Repr

/-- R61, R70: where each field lies in `IW = {W3, W2, W1, W0}`. -/
def fieldsOf (iw : IWord) : Fields :=
  { opc := iw.extractLsb' 0 4
    dtype := iw.extractLsb' 4 4
    i1 := iw.getLsbD 8
    i2 := iw.getLsbD 9
    rsv := iw.extractLsb' 10 22
    dst := iw.extractLsb' 32 32
    src1 := iw.extractLsb' 64 32
    src2 := iw.extractLsb' 96 32 }

/-- R61: the word with the given fields, `{SRC2, SRC1, DST, RSV, I2, I1, DTYPE, OPC}`. -/
def wordOf (f : Fields) : IWord :=
  f.src2 ++ f.src1 ++ f.dst ++ f.rsv ++ BitVec.ofBool f.i2 ++ BitVec.ofBool f.i1 ++ f.dtype ++ f.opc

/-- R66: the tag of a data-type code, none for 8 to 15. -/
def dtypeOfCode (c : BitVec 4) : Option DType :=
  match c.toNat with
  | 0 => some .s8
  | 1 => some .u8
  | 2 => some .s16
  | 3 => some .u16
  | 4 => some .s32
  | 5 => some .u32
  | 6 => some .f16
  | 7 => some .f32
  | _ => none

/-- R66: the code of a data-type tag. -/
def dtypeCode : DType → BitVec 4
  | .s8 => 0
  | .u8 => 1
  | .s16 => 2
  | .u16 => 3
  | .s32 => 4
  | .u32 => 5
  | .f16 => 6
  | .f32 => 7

/-- R61: a source field is an immediate if its flag is 1, else a register index. -/
def srcOf (flag : Bool) (f : Word) : Src :=
  if flag then .imm f else .reg f

/-- The flag `I1` or `I2` of a source (R61). -/
def srcFlag : Src → Bool
  | .reg _ => false
  | .imm _ => true

/-- The 32 bits of a source's field (R61). -/
def srcField : Src → Word
  | .reg f => f
  | .imm v => v

/-- R60, R71: the instruction of each of the sixteen opcode values. -/
def instrOf (opc : BitVec 4) (t : DType) (d : Word) (a b : Src) : Instr :=
  match opc.toNat with
  | 0 => .mov t d a b
  | 1 => .add t d a b
  | 2 => .sub t d a b
  | 3 => .mul t d a b
  | 4 => .div t d a b
  | 5 => .load t d a b
  | 6 => .store t d a b
  | 7 => .and t d a b
  | 8 => .or t d a b
  | 9 => .xor t d a b
  | 10 => .not t d a b
  | 11 => .shl t d a b
  | 12 => .shr t d a b
  | 13 => .opc13 t d a b
  | 14 => .opc14 t d a b
  | _ => .opc15 t d a b

/-- R60: the opcode number of each instruction. -/
def opcodeOf : Instr → BitVec 4
  | .mov _ _ _ _ => 0
  | .add _ _ _ _ => 1
  | .sub _ _ _ _ => 2
  | .mul _ _ _ _ => 3
  | .div _ _ _ _ => 4
  | .load _ _ _ _ => 5
  | .store _ _ _ _ => 6
  | .and _ _ _ _ => 7
  | .or _ _ _ _ => 8
  | .xor _ _ _ _ => 9
  | .not _ _ _ _ => 10
  | .shl _ _ _ _ => 11
  | .shr _ _ _ _ => 12
  | .opc13 _ _ _ _ => 13
  | .opc14 _ _ _ _ => 14
  | .opc15 _ _ _ _ => 15

/-- R67, R70: the instruction a word stands for, or the reason it is not well-formed. -/
def decode (iw : IWord) : Except DecodeError Instr :=
  let f := fieldsOf iw
  if f.rsv ≠ 0#22 then .error .reservedBits
  else
    match dtypeOfCode f.dtype with
    | none => .error .dtypeOutsideSet
    | some t => .ok (instrOf f.opc t f.dst (srcOf f.i1 f.src1) (srcOf f.i2 f.src2))

/-- R61: the word of an instruction, reserved bits zero. -/
def encode (i : Instr) : IWord :=
  wordOf
    { opc := opcodeOf i
      dtype := dtypeCode i.dtype
      i1 := srcFlag i.src1
      i2 := srcFlag i.src2
      rsv := 0#22
      dst := i.dst
      src1 := srcField i.src1
      src2 := srcField i.src2 }

/-- R62: byte `j` of a serialised word is `IW[8j+7 : 8j]`. -/
def byteOfWord (iw : IWord) (j : Nat) : Byte :=
  iw.extractLsb' (8 * j) 8

/-- R62: the 16 bytes of a serialised word, `W0` first, each word least-significant byte first. -/
def bytesOfWord (iw : IWord) : List Byte :=
  (List.range 16).map (byteOfWord iw)

/-- R62, R69: take one word from serialised bytes: the word and the bytes after it, none if fewer than 16 are left. -/
def wordOfBytes : List Byte → Option (IWord × List Byte)
  | b0 :: b1 :: b2 :: b3 :: b4 :: b5 :: b6 :: b7 :: b8 :: b9 :: b10 :: b11 :: b12 :: b13 :: b14 :: b15 :: rest =>
    some (b15 ++ b14 ++ b13 ++ b12 ++ b11 ++ b10 ++ b9 ++ b8 ++ b7 ++ b6 ++ b5 ++ b4 ++ b3 ++ b2 ++ b1 ++ b0, rest)
  | _ => none

/-- R62, R70: decode one instruction from serialised bytes, and what is left of them. -/
def decodeBytes (bs : List Byte) : Except DecodeError (Instr × List Byte) :=
  match wordOfBytes bs with
  | none => .error .tooShort
  | some (iw, rest) =>
    match decode iw with
    | .error e => .error e
    | .ok i => .ok (i, rest)

/-- The whole 128-bit word of an instruction of which `nbits` bits are given as the number `w`, bit 0 the least
significant bit of `W0`; every bit above is zero. -/
def tableWord (nbits w : Nat) : IWord :=
  BitVec.ofNat 128 (w % 2 ^ nbits)

/-- The instruction the decoder reads from the serialised bytes of `tableWord nbits w`. -/
def decodeTableWord (nbits w : Nat) : Option Instr :=
  match decodeBytes (bytesOfWord (tableWord nbits w)) with
  | .ok (i, _) => some i
  | .error _ => none

end Sys2Proof
end

