-- ==== Sys2Proof/Machine/State.lean ====
section
/-! DEFINITION. The machine's state (spec/10_state.md), the commands and responses of its host interface
(spec/44_host_interface.md), the reasons a step can stop, and the state after reset (spec/70_reset_and_hazards.md R200). -/

namespace Sys2Proof.Machine

/-- The four fault kinds of a run (R180). A fault is not a stop of the model: it is taken (R182), in a next state. -/
inductive FaultKind where
  /-- A register index outside `[0, N)`: validation of any instruction (R84). -/
  | invalidRegister
  /-- A memory address outside `[0, M)`: LOAD and STORE at an active lane (R43). -/
  | outOfBoundsAccess
  /-- A resolved divisor lane equal to zero: DIV at an active lane (R104). -/
  | divideByZero
  /-- An opcode not in the executable subset, at the first active lane (R140, R141). -/
  | unsupportedInstruction
  deriving DecidableEq, Repr

/-- The response codes of the host commands (R185). -/
inductive ResponseCode where
  | ok
  | invalidRegister
  | outOfBoundsAccess
  | divideByZero
  | unsupportedInstruction
  | malformedRecord
  | programFull
  | engineFaulted
  deriving DecidableEq, Repr

/-- The data a response carries beside its code (R160). -/
inductive ResponseData where
  | none
  /-- `FAULT_INDEX`, with a fault of `execute_all` (R164, R182). -/
  | faultIndex (k : Word)
  /-- The lanes of a register, lane 0 first (R166). -/
  | lanes (vs : List Word)
  /-- The bits of a mask, lane 0 first (R167). -/
  | mask (bs : List Bool)
  /-- `STATUS`, `FAULT_INDEX`, `PROG_LEN` (R168). -/
  | status (st fi pl : Word)
  deriving DecidableEq, Repr

/-- One response: a code and its data (R160, R185). -/
structure Response where
  code : ResponseCode
  data : ResponseData
  deriving DecidableEq, Repr

/-- The seven host commands with their request fields (R160). A mask is its bits, lane 0 first (R23). -/
inductive Command where
  | reset
  | installMask (r : Word) (m : List Bool)
  | append (iw : IWord)
  | executeAll
  | readRegister (r : Word)
  | readMask (r : Word)
  | readStatus
  deriving DecidableEq, Repr

/-- The memory `MEM` (R34): the bytes that differ from what an unlisted address reads as, by strictly rising address. -/
abbrev Memory := List Host.Cell

/-- The state of one engine instance (spec/10_state.md). -/
structure State where
  /-- `N`, `L`, `M`, `PROG_CAP` (R7): fixed for the life of the engine; no step changes them (entry 1). -/
  params : Params
  /-- `V` (R20): `N` registers, each a list of `L` lanes, lane 0 first. -/
  regs : List (List Word)
  /-- `K` (R23): `N` masks, each a list of `L` bits, bit 0 first. -/
  masks : List (List Bool)
  /-- `MEM` (R34). -/
  mem : Memory
  /-- `P` (R26): the instruction words appended since reset, oldest first; `PLEN` is its length. -/
  prog : List IWord
  /-- The run cursor (R28). -/
  pc : Word
  /-- Whether `execute_all` is under way (R28, R80; entry 3). -/
  running : Bool
  /-- `EXECUTED` (R30). -/
  executed : Bool
  /-- `FAULTED` (R31). -/
  faulted : Bool
  /-- `FAULT_KIND` (R31). -/
  faultKind : BitVec 3
  /-- `FAULT_INDEX` (R32). -/
  faultIndex : Word
  /-- The host commands issued and not yet taken, oldest first (R160, R170; entry 4). -/
  inbox : List Command
  /-- The responses given so far, oldest first (R160, R185; entry 4). -/
  outbox : List Response
  deriving DecidableEq, Repr

/-- The reasons a step stops for good. The four fault kinds of the spec are NOT here: the machine takes them (R182). -/
inductive Fault where
  /-- Raised by `step` alone, when a run reaches a stored word that is not well-formed. The spec gives such a word no
  behaviour: `append` refuses it and it "never reaches execution" (R67, R68), so no run reaches such a state. Safe:
  the model stops where the spec says nothing (entry 7). -/
  | malformedWord (e : DecodeError)
  deriving DecidableEq, Repr

/-- The reasons an instruction has no meaning in the model. -/
inductive Refusal where
  /-- Raised by `exec` for an instruction that has no meaning yet, under its mnemonic. Safe. Every instruction of the
  opcode table has its meaning: no arm raises it. -/
  | notModelled (mnemonic : String)
  deriving DecidableEq, Repr

/-- R200: every piece of state of an engine with parameters `p` at its reset value. -/
def State.resetWith (p : Params) : State :=
  { params := p
    regs := List.replicate p.numRegs (List.replicate p.numLanes 0#32)
    masks := List.replicate p.numRegs (List.replicate p.numLanes false)
    mem := []
    prog := []
    pc := 0#32
    running := false
    executed := false
    faulted := false
    faultKind := 0#3
    faultIndex := 0#32
    inbox := []
    outbox := [] }

/-- The machine right after reset (R200), for the reference parameters (R7; entries 1 and 2). -/
def State.reset : State := State.resetWith Config.reference

end Sys2Proof.Machine
end

