-- ==== Sys2Proof/Machine/Ops.lean ====
section
/-! DEFINITION. The named operations over registers, masks and memory (spec/10_state.md, spec/20_memory.md), taking a
fault (spec/60_exceptions.md R182), and what every instruction shares: validation and the lane loop
(spec/40_execution.md R82, R84, R89). -/

namespace Sys2Proof.Machine

/-! ### Registers and masks -/

/-- `V[r][i]` (R10, R20). -/
def State.lane (s : State) (r i : Nat) : Word :=
  (s.regs.getD r []).getD i 0#32

/-- `V[r][i] <- v` (R10): no other lane changes. -/
def State.setLane (s : State) (r i : Nat) (v : Word) : State :=
  { s with regs := s.regs.set r ((s.regs.getD r []).set i v) }

/-- `K[r][i]` (R10, R23). -/
def State.maskBit (s : State) (r i : Nat) : Bool :=
  (s.masks.getD r []).getD i false

/-- `PLEN` (R26): the number of words in the program store. -/
def State.plen (s : State) : Nat :=
  s.prog.length

/-! ### Memory -/

/-- What a byte of memory that nothing has written reads as: its reset value (R34, R51). -/
def unlistedByte : Byte := 0x00#8

/-- The byte at an address. -/
def Memory.read : Memory → Nat → Byte
  | [], _ => unlistedByte
  | (a, v) :: m, k => if a = k then v else Memory.read m k

/-- Write one byte, keeping the canonical form. -/
def Memory.write : Memory → Nat → Byte → Memory
  | [], k, v => if v = unlistedByte then [] else [(k, v)]
  | (a, w) :: m, k, v =>
    if k < a then (if v = unlistedByte then (a, w) :: m else (k, v) :: (a, w) :: m)
    else if a = k then (if v = unlistedByte then m else (k, v) :: m)
    else (a, w) :: Memory.write m k v

/-- The canonical form: addresses strictly rising, no entry equal to what an unlisted address reads as. -/
def Memory.wf : Memory → Bool
  | [] => true
  | (a, v) :: m => (v != unlistedByte) && m.all (fun c => decide (a < c.1)) && Memory.wf m

/-- R43: `in_range(a)`, the pattern read as a signed integer. -/
def State.inRange (s : State) (a : Word) : Bool :=
  decide (0 ≤ sint a) && decide (sint a < s.params.memBytes)

/-- `MemRead(a, 1)` for an address in range: `MEM[sint(a)]`; no state changes (R41). -/
def State.memRead (s : State) (a : Word) : Byte :=
  Memory.read s.mem (sint a).toNat

/-- `MemWrite(a, 1, v)` for an address in range: `MEM[sint(a)] <- v[7:0]`; no other byte changes (R42). -/
def State.memWrite (s : State) (a v : Word) : State :=
  { s with mem := Memory.write s.mem (sint a).toNat (v.extractLsb' 0 8) }

/-! ### Responses and fault entry -/

/-- `respond(code, data)` (R10, R160). -/
def State.respond (c : ResponseCode) (d : ResponseData) (s : State) : State :=
  { s with outbox := s.outbox ++ [{ code := c, data := d }] }

/-- The code of a fault kind (R180). -/
def FaultKind.code : FaultKind → BitVec 3
  | .invalidRegister => 1
  | .outOfBoundsAccess => 2
  | .divideByZero => 3
  | .unsupportedInstruction => 4

/-- The response code of a fault (R182, R185). -/
def FaultKind.response : FaultKind → ResponseCode
  | .invalidRegister => .invalidRegister
  | .outOfBoundsAccess => .outOfBoundsAccess
  | .divideByZero => .divideByZero
  | .unsupportedInstruction => .unsupportedInstruction

/-- R182, fault entry: the one operation every fault goes through. FAULTED and EXECUTED are set, FAULT_KIND and
FAULT_INDEX written, the run ends with the fault's response. Nothing is rolled back. There is no return from a fault
(R186): only `reset` clears the record (R161, R184). -/
def takeFault (f : FaultKind) (s : State) : State :=
  State.respond f.response (.faultIndex s.pc)
    { s with faulted := true, faultKind := f.code, faultIndex := s.pc, executed := true, running := false }

/-- R80: `pc <- wrap32(uint(pc) + 1)`, after an instruction completes. -/
def State.advance (s : State) : State :=
  { s with pc := wrap32 (uint s.pc + 1) }

/-! ### One instruction: validation, then the lane loop -/

/-- Whether a source is in register form with an index outside `[0, n)` (R65). -/
def Src.invalid (n : Nat) : Src → Bool
  | .reg f => decide (n ≤ uint f)
  | .imm _ => false

/-- R84: the three checks in order; the first that fails raises InvalidRegister. Immediates are not checked (R85). -/
def validate (n : Nat) (d : Word) (a b : Src) : Option FaultKind :=
  if n ≤ uint d then some .invalidRegister
  else if Src.invalid n a then some .invalidRegister
  else if Src.invalid n b then some .invalidRegister
  else none

/-- How a lane loop ends: every lane done, or a fault raised, each with the state at that moment. -/
inductive LoopEnd where
  | done (s : State)
  | raised (f : FaultKind) (s : State)
  deriving DecidableEq, Repr

/-- R82, R87, R89: run `op` at each listed lane whose bit in the mask of register `d` is set, in the order listed. A
lane operation that raises has written nothing for its lane, and the loop stops there with the writes of the lanes
before it. -/
def laneLoop (d : Nat) (op : Nat → State → Except FaultKind State) : List Nat → State → LoopEnd
  | [], s => .done s
  | i :: is, s =>
    if s.maskBit d i then
      match op i s with
      | .ok s' => laneLoop d op is s'
      | .error f => .raised f s
    else laneLoop d op is s

/-- R80, R182: what follows the lane loop: the next instruction, or fault entry. -/
def finish : LoopEnd → State
  | .done s => s.advance
  | .raised f s => takeFault f s

/-- R82: validation, then the lane loop over lanes `0 .. L-1` in ascending order, then the next instruction or fault
entry. Every instruction is this with its own lane operation. -/
def execOne (d : Word) (a b : Src) (op : Nat → State → Except FaultKind State) (s : State) :
    Host.Outcome State Fault Refusal :=
  match validate s.params.numRegs d a b with
  | some f => .next (takeFault f s)
  | none => .next (finish (laneLoop (uint d) op (List.range s.params.numLanes) s))

end Sys2Proof.Machine
end

