-- ==== Sys2Proof/Machine/Operands.lean ====
section
/-! DEFINITION. Operand resolution (spec/40_execution.md R86) and the widening of a loaded byte (spec/00_scope.md R9).
There are two operand forms, immediate and register; the effective address of LOAD and STORE is an operand with nothing
added (spec/42_loadstore.md R122). -/

namespace Sys2Proof.Machine

/-- R86: `operand(x, imm, i)`: an immediate is the same scalar in every lane, a register gives its lane `i` as it
stands now. -/
def operand (x : Src) (i : Nat) (s : State) : Word :=
  match x with
  | .imm v => v
  | .reg f => s.lane (uint f) i

/-- R9: `sext_32(b)`, the 32-bit pattern that denotes the two's-complement value of a byte. -/
def sext32 (b : Byte) : Word :=
  b.signExtend 32

/-- R9: `zext_32(b)`. No instruction uses it: LOAD sign-extends (R120). -/
def zext32 (b : Byte) : Word :=
  b.setWidth 32

/-- R9: `trunc_div(a, b)`, the quotient rounded toward zero. -/
def truncDiv (a b : Int) : Int :=
  Int.tdiv a b

end Sys2Proof.Machine
end

