-- ==== Sys2Proof/Machine/Arith.lean ====
section
/-! DEFINITION. MOV, ADD, SUB, MUL, DIV (spec/41_arith.md). Operands are read as signed integers, the result is computed
exactly and narrowed once at the end (R105). No flag is written (R29); the data-type tag plays no part (R66). -/

namespace Sys2Proof.Machine

/-- A lane operation that writes lane `i` of register `d` with a function of the two resolved operands. -/
def binaryLane (f : Word → Word → Word) (d : Nat) (a b : Src) (i : Nat) (s : State) : Except FaultKind State :=
  .ok (s.setLane d i (f (operand a i s) (operand b i s)))

/-- R100, lane `i` of MOV: `V[d][i] <- operand(src1)`. -/
def movLane (d : Nat) (a : Src) (i : Nat) (s : State) : Except FaultKind State :=
  .ok (s.setLane d i (operand a i s))

/-- R101: the wrapped sum. -/
def addWord (a b : Word) : Word := wrap32 (sint a + sint b)

/-- R102: the wrapped difference, first minus second. -/
def subWord (a b : Word) : Word := wrap32 (sint a - sint b)

/-- R103: the low 32 bits of the product. -/
def mulWord (a b : Word) : Word := wrap32 (sint a * sint b)

/-- R104: the quotient truncated toward zero, for a divisor that is not zero; `-2^31 / -1` gives `0x80000000` (D15). -/
def divWord (a b : Word) : Word :=
  if sint a = -2 ^ 31 ∧ sint b = -1 then 0x80000000#32 else wrap32 (truncDiv (sint a) (sint b))

/-- R104, lane `i` of DIV: a zero divisor raises DivideByZero before anything is written. -/
def divLane (d : Nat) (a b : Src) (i : Nat) (s : State) : Except FaultKind State :=
  if sint (operand b i s) = 0 then .error .divideByZero
  else .ok (s.setLane d i (divWord (operand a i s) (operand b i s)))

/-- MOV (R100). SRC2 is not read, but validated. -/
def execMov (d : Word) (a b : Src) (s : State) : Host.Outcome State Fault Refusal :=
  execOne d a b (movLane (uint d) a) s

/-- ADD (R101). -/
def execAdd (d : Word) (a b : Src) (s : State) : Host.Outcome State Fault Refusal :=
  execOne d a b (binaryLane addWord (uint d) a b) s

/-- SUB (R102). -/
def execSub (d : Word) (a b : Src) (s : State) : Host.Outcome State Fault Refusal :=
  execOne d a b (binaryLane subWord (uint d) a b) s

/-- MUL (R103). -/
def execMul (d : Word) (a b : Src) (s : State) : Host.Outcome State Fault Refusal :=
  execOne d a b (binaryLane mulWord (uint d) a b) s

/-- DIV (R104). -/
def execDiv (d : Word) (a b : Src) (s : State) : Host.Outcome State Fault Refusal :=
  execOne d a b (divLane (uint d) a b) s

end Sys2Proof.Machine
end

