-- ==== Sys2Proof/Machine/LoadStore.lean ====
section
/-! DEFINITION. LOAD and STORE (spec/42_loadstore.md). One byte per active lane, at the address SRC1 resolves to in that
lane (R122); an address outside `[0, M)` raises before anything is written for the lane (R89). -/

namespace Sys2Proof.Machine

/-- R122: the effective address of lane `i`: the resolved SRC1, nothing added. -/
def effectiveAddress (a : Src) (i : Nat) (s : State) : Word :=
  operand a i s

/-- R120, lane `i` of LOAD: the byte at the address, sign-extended, to lane `i` of `d`. -/
def loadLane (d : Nat) (a : Src) (i : Nat) (s : State) : Except FaultKind State :=
  if s.inRange (effectiveAddress a i s) then
    .ok (s.setLane d i (sext32 (s.memRead (effectiveAddress a i s))))
  else .error .outOfBoundsAccess

/-- R121, lane `i` of STORE: the low byte of lane `i` of `d` to the address. -/
def storeLane (d : Nat) (a : Src) (i : Nat) (s : State) : Except FaultKind State :=
  if s.inRange (effectiveAddress a i s) then .ok (s.memWrite (effectiveAddress a i s) (s.lane d i))
  else .error .outOfBoundsAccess

/-- LOAD (R120). SRC2 is not read, but validated. -/
def execLoad (d : Word) (a b : Src) (s : State) : Host.Outcome State Fault Refusal :=
  execOne d a b (loadLane (uint d) a) s

/-- STORE (R121). DST is the data source and its mask gates the lanes; SRC2 is not read, but validated. -/
def execStore (d : Word) (a b : Src) (s : State) : Host.Outcome State Fault Refusal :=
  execOne d a b (storeLane (uint d) a) s

end Sys2Proof.Machine
end

