-- ==== Sys2Proof/Machine/Unsupported.lean ====
section
/-! DEFINITION. AND, OR, XOR, NOT, SHL, SHR and the unrecognised opcodes 13 to 15 (spec/43_unsupported.md R140, R141).
Their whole meaning is: validation, then UnsupportedInstruction at the first active lane; with no active lane they
complete with no effect (R90). The spec forbids computing a bitwise or shift result. -/

namespace Sys2Proof.Machine

/-- R140, R141, an active lane: raise UnsupportedInstruction; nothing is read or written. -/
def unsupportedLane (_i : Nat) (_s : State) : Except FaultKind State :=
  .error .unsupportedInstruction

/-- AND (R140). -/
def execAnd (d : Word) (a b : Src) (s : State) : Host.Outcome State Fault Refusal :=
  execOne d a b unsupportedLane s

/-- OR (R140). -/
def execOr (d : Word) (a b : Src) (s : State) : Host.Outcome State Fault Refusal :=
  execOne d a b unsupportedLane s

/-- XOR (R140). -/
def execXor (d : Word) (a b : Src) (s : State) : Host.Outcome State Fault Refusal :=
  execOne d a b unsupportedLane s

/-- NOT (R140). Its SRC2 is validated like any other. -/
def execNot (d : Word) (a b : Src) (s : State) : Host.Outcome State Fault Refusal :=
  execOne d a b unsupportedLane s

/-- SHL (R140). -/
def execShl (d : Word) (a b : Src) (s : State) : Host.Outcome State Fault Refusal :=
  execOne d a b unsupportedLane s

/-- SHR (R140). -/
def execShr (d : Word) (a b : Src) (s : State) : Host.Outcome State Fault Refusal :=
  execOne d a b unsupportedLane s

/-- Unrecognised opcode 13 (R141). -/
def execOpc13 (d : Word) (a b : Src) (s : State) : Host.Outcome State Fault Refusal :=
  execOne d a b unsupportedLane s

/-- Unrecognised opcode 14 (R141). -/
def execOpc14 (d : Word) (a b : Src) (s : State) : Host.Outcome State Fault Refusal :=
  execOne d a b unsupportedLane s

/-- Unrecognised opcode 15 (R141). -/
def execOpc15 (d : Word) (a b : Src) (s : State) : Host.Outcome State Fault Refusal :=
  execOne d a b unsupportedLane s

end Sys2Proof.Machine
end

