-- ==== Sys2Proof/Machine/Dispatch.lean ====
section
/-! DEFINITION. The dispatch of an instruction to its meaning (spec/40_execution.md R82), one arm per constructor. The
data-type tag is dropped here: it is inert (spec/30_encoding.md R66). -/

namespace Sys2Proof.Machine

def exec (i : Instr) (s : State) : Host.Outcome State Fault Refusal :=
  match i with
  -- spec/41_arith.md
  | .mov _ d a b => Sys2Proof.Machine.execMov d a b s
  | .add _ d a b => Sys2Proof.Machine.execAdd d a b s
  | .sub _ d a b => Sys2Proof.Machine.execSub d a b s
  | .mul _ d a b => Sys2Proof.Machine.execMul d a b s
  | .div _ d a b => Sys2Proof.Machine.execDiv d a b s
  -- spec/42_loadstore.md
  | .load _ d a b => Sys2Proof.Machine.execLoad d a b s
  | .store _ d a b => Sys2Proof.Machine.execStore d a b s
  -- spec/43_unsupported.md
  | .and _ d a b => Sys2Proof.Machine.execAnd d a b s
  | .or _ d a b => Sys2Proof.Machine.execOr d a b s
  | .xor _ d a b => Sys2Proof.Machine.execXor d a b s
  | .not _ d a b => Sys2Proof.Machine.execNot d a b s
  | .shl _ d a b => Sys2Proof.Machine.execShl d a b s
  | .shr _ d a b => Sys2Proof.Machine.execShr d a b s
  | .opc13 _ d a b => Sys2Proof.Machine.execOpc13 d a b s
  | .opc14 _ d a b => Sys2Proof.Machine.execOpc14 d a b s
  | .opc15 _ d a b => Sys2Proof.Machine.execOpc15 d a b s

end Sys2Proof.Machine
end

