-- ==== Sys2Proof/Machine/Flags.lean ====
section
/-! DEFINITION. The core has no status flags: no instruction sets or reads a carry, overflow, zero or sign flag
(spec/10_state.md R29), so there is no flag computation. What it has is the status words `read_status` returns, computed
here from the engine state and the fault record (R33). -/

namespace Sys2Proof.Machine

/-- R33: `STATUS`: bit 0 EXECUTED, bit 1 FAULTED, bits 4:2 FAULT_KIND, bits 31:5 zero. -/
def State.statusWord (s : State) : Word :=
  0#27 ++ s.faultKind ++ BitVec.ofBool s.faulted ++ BitVec.ofBool s.executed

/-- R33: `PROG_LEN`, the number of words appended. -/
def State.progLenWord (s : State) : Word :=
  BitVec.ofNat 32 s.plen

end Sys2Proof.Machine
end

