-- ==== Sys2Proof/Machine/HostInterface.lean ====
section
/-! DEFINITION. The seven host commands (spec/44_host_interface.md R160 to R168), each as its rule's pseudocode has it:
the checks in the order given, then the change of state, then the response. `execute_all` starts the run here; the run
itself is `step`'s, and its response comes when the run ends (R80, R182). -/

namespace Sys2Proof.Machine

/-- R23: a mask request field as the `L` bits of a mask. A field of exactly `L` bits is taken as it is; the model cuts
or pads any other with 0 (entry 8: the request field has `L` bits, so no other exists). -/
def fitMask (n : Nat) (m : List Bool) : List Bool :=
  (List.range n).map (fun i => m.getD i false)

/-- `reset` (R161, R200): every piece of state at its reset value, always accepted. The parameters stay; so do the
model's own records of commands waiting and responses given (entry 4). -/
def cmdReset (s : State) : State :=
  State.respond .ok .none { State.resetWith s.params with inbox := s.inbox, outbox := s.outbox }

/-- `install_mask(r, m)` (R162). -/
def cmdInstallMask (r : Word) (m : List Bool) (s : State) : State :=
  if s.faulted then State.respond .engineFaulted .none s
  else if s.params.numRegs ≤ uint r then State.respond .invalidRegister .none s
  else State.respond .ok .none { s with masks := s.masks.set (uint r) (fitMask s.params.numLanes m) }

/-- `append(IW)` (R163): the word is stored as given, and decoded only when it runs. -/
def cmdAppend (iw : IWord) (s : State) : State :=
  if s.faulted then State.respond .engineFaulted .none s
  else if wordWellFormed iw = false then State.respond .malformedRecord .none s
  else if s.plen = s.params.progCap then State.respond .programFull .none s
  else State.respond .ok .none { s with prog := s.prog ++ [iw] }

/-- `execute_all()` (R164) up to the start of the run: `pc <- 0` (R80). -/
def cmdExecuteAll (s : State) : State :=
  if s.faulted then State.respond .engineFaulted .none s
  else { s with pc := 0#32, running := true }

/-- `read_register(r)` (R166): accepted in every state. -/
def cmdReadRegister (r : Word) (s : State) : State :=
  if s.params.numRegs ≤ uint r then State.respond .invalidRegister .none s
  else State.respond .ok (.lanes (s.regs.getD (uint r) [])) s

/-- `read_mask(r)` (R167): accepted in every state. -/
def cmdReadMask (r : Word) (s : State) : State :=
  if s.params.numRegs ≤ uint r then State.respond .invalidRegister .none s
  else State.respond .ok (.mask (s.masks.getD (uint r) [])) s

/-- `read_status()` (R168): accepted in every state. -/
def cmdReadStatus (s : State) : State :=
  State.respond .ok (.status s.statusWord s.faultIndex s.progLenWord) s

/-- One host command (R160). -/
def takeCommand (c : Command) (s : State) : State :=
  match c with
  | .reset => cmdReset s
  | .installMask r m => cmdInstallMask r m s
  | .append iw => cmdAppend iw s
  | .executeAll => cmdExecuteAll s
  | .readRegister r => cmdReadRegister r s
  | .readMask r => cmdReadMask r s
  | .readStatus => cmdReadStatus s

/-- The number of a response code (R185). -/
def ResponseCode.number : ResponseCode → Nat
  | .ok => 0
  | .invalidRegister => 1
  | .outOfBoundsAccess => 2
  | .divideByZero => 3
  | .unsupportedInstruction => 4
  | .malformedRecord => 5
  | .programFull => 6
  | .engineFaulted => 7

/-- R80, the end of a run that did not fault: `EXECUTED <- 1`, `respond(OK)`. -/
def endRun (s : State) : State :=
  State.respond .ok .none { s with executed := true, running := false }

/-- R80: the word the run reads next, none when `pc` has reached `PLEN`. -/
def fetch (s : State) : Option IWord :=
  s.prog[uint s.pc]?

/-- Between runs: take the oldest command waiting (R170); with none, the machine is idle and keeps its state (R195). -/
def serveHost (s : State) : State :=
  match s.inbox with
  | [] => s
  | c :: cs => takeCommand c { s with inbox := cs }

/-- A state in which the very next step runs the instruction of `tableWord nbits w`: the program store holds that one
word, as after one `append`, and a run has just begun, as after `execute_all` (R163, R80; entry 5). -/
def loadOneWord (s : State) (nbits w : Nat) : State :=
  { s with prog := [tableWord nbits w], pc := 0#32, running := true }

end Sys2Proof.Machine
end

