-- ==== Sys2Proof/Machine/Step.lean ====
section
/-! DEFINITION. One step of the machine. While a run is under way a step is one turn of its loop (spec/40_execution.md
R80): one instruction, or the end of the run. Between runs a step takes one host command (spec/44_host_interface.md R170).
Fault entry ends the run inside the faulting instruction's own step (spec/60_exceptions.md R182). -/

namespace Sys2Proof.Machine

/-- R80, R170. -/
def step (s : State) : Host.Outcome State Fault Refusal :=
  if s.running then
    match fetch s with
    | none => .next (endRun s)
    | some iw =>
      match decode iw with
      | .ok i => exec i s
      | .error e => .fault (.malformedWord e)
  else .next (serveHost s)

/-- `s` with the instruction word of `nbits` bits `w` stored where the next step fetches it (entry 5). -/
def State.withFetchWord (s : State) (nbits w : Nat) : State :=
  loadOneWord s nbits w

end Sys2Proof.Machine
end

