-- ==== Sys2Proof/Machine/Listing.lean ====
section
/-! DEFINITION. Program listings (spec/30_encoding.md R73, R74) as abstract syntax: the lines a listing may hold and the
host command each stands for. The characters of a line are not behaviour (D29) and parsing text is out of the spec's scope
(spec/00_scope.md R5), so a line is its parts: mnemonic, suffix, register numbers, immediates (entry 13). -/

namespace Sys2Proof.Machine

/-- A source operand of a listing line: `rN`, or `imm(v)` (R73). -/
inductive ListingSrc where
  | reg (n : Nat)
  | imm (v : Int)
  deriving DecidableEq, Repr

/-- The mask of a `MASK` line: hex digits, `all` or `none` (R74). -/
inductive ListingMask where
  | hex (h : Nat)
  | all
  | none
  deriving DecidableEq, Repr

/-- A line of a listing (R73, R74). An instruction line names its opcode, its optional type suffix, `rD`, `S1`, and
`S2`: the second operand of a two-source form, or the optional suffix `, src2=S` of a form without one. -/
inductive ListingLine where
  | mask (n : Nat) (m : ListingMask)
  | run
  | instr (opc : BitVec 4) (t : Option DType) (d : Nat) (s1 : ListingSrc) (s2 : Option ListingSrc)
  deriving DecidableEq, Repr

/-- R73: the forms whose `SRC2` column shows `imm(0)`: MOV, LOAD, STORE, NOT. -/
def hasOneSource (opc : BitVec 4) : Bool :=
  opc == 0 || opc == 5 || opc == 6 || opc == 10

/-- R73, R64: `rN` with `N` a 32-bit field; `imm(v)` with `v` in `[-2^31, 2^32)`. -/
def ListingSrc.wellFormed : ListingSrc → Bool
  | .reg n => decide (n < 2 ^ 32)
  | .imm v => decide (-2 ^ 31 ≤ v) && decide (v < 2 ^ 32)

/-- R74: a hex mask has no bit above lane `L - 1`. -/
def ListingMask.wellFormed (lanes : Nat) : ListingMask → Bool
  | .hex h => decide (h < 2 ^ lanes)
  | .all => true
  | .none => true

/-- R73, R74: the fields fit, and a two-source form names its second source. -/
def ListingLine.wellFormed (lanes : Nat) : ListingLine → Bool
  | .mask n m => decide (n < 2 ^ 32) && m.wellFormed lanes
  | .run => true
  | .instr opc _ d s1 s2 =>
    decide (d < 2 ^ 32) && s1.wellFormed &&
      (match s2 with
       | some s => s.wellFormed
       | .none => hasOneSource opc)

/-- R73: `rN` is field `N` with `I = 0`; `imm(v)` is field `wrap32(v)` with `I = 1`. -/
def ListingSrc.assemble : ListingSrc → Src
  | .reg n => .reg (BitVec.ofNat 32 n)
  | .imm v => .imm (wrap32 v)

/-- R74: bit `i` of the hex value is lane `i`; `all` is every bit 1, `none` every bit 0. -/
def ListingMask.bits (lanes : Nat) : ListingMask → List Bool
  | .hex h => (List.range lanes).map (fun i => h.testBit i)
  | .all => List.replicate lanes true
  | .none => List.replicate lanes false

/-- R73: the instruction of an instruction line: `DTYPE = 4` without a suffix, `SRC2 = imm(0)` where none is named. -/
def assembleInstr (opc : BitVec 4) (t : Option DType) (d : Nat) (s1 : ListingSrc) (s2 : Option ListingSrc) : Instr :=
  instrOf opc (t.getD .s32) (BitVec.ofNat 32 d) s1.assemble (s2.getD (.imm 0)).assemble

/-- R74: the host command a well-formed line stands for: `MASK` is `install_mask`, `RUN` is `execute_all`, every other
line is an `append`. -/
def assembleLine (lanes : Nat) (l : ListingLine) : Option Command :=
  if l.wellFormed lanes then
    match l with
    | .mask n m => some (.installMask (BitVec.ofNat 32 n) (m.bits lanes))
    | .run => some .executeAll
    | .instr opc t d s1 s2 => some (.append (encode (assembleInstr opc t d s1 s2)))
  else .none

/-- R73: the spelling of a source field. -/
def listSrc : Src → ListingSrc
  | .reg f => .reg (uint f)
  | .imm v => .imm (sint v)

/-- R73: a spelling of an instruction, its suffix and its `SRC2` given in full. -/
def listInstr (i : Instr) : ListingLine :=
  .instr (opcodeOf i) (some i.dtype) (uint i.dst) (listSrc i.src1) (some (listSrc i.src2))

/-- R74: the commands of a listing, in order; none if some line is not well-formed. -/
def assemble (lanes : Nat) : List ListingLine → Option (List Command)
  | [] => some []
  | l :: ls =>
    match assembleLine lanes l, assemble lanes ls with
    | some c, some cs => some (c :: cs)
    | _, _ => .none

end Sys2Proof.Machine
end

