-- ==== Sys2Proof/Machine/Transaction.lean ====
section
/-! DEFINITION. Each host command as ONE atomic transaction, the way the spec describes the block (spec/00_scope.md R3,
spec/44_host_interface.md R160): the state after the command and its response are reached in one go. `execute_all` is here
the whole loop of R80. The step machine, which runs one instruction a step, refines it. -/

namespace Sys2Proof.Machine

/-- R80, the run loop over the words still to run. A fault leaves the loop (R182). -/
def runWords : List IWord → State → Host.Outcome State Fault Refusal
  | [], s => .next (endRun s)
  | w :: ws, s =>
    match decode w with
    | .error e => .fault (.malformedWord e)
    | .ok i =>
      match exec i s with
      | .next s' => if s'.faulted then .next s' else runWords ws s'
      | .fault r => .fault r
      | .refused r => .refused r

/-- R164: `execute_all` as one transaction. -/
def executeAllAtomic (s : State) : Host.Outcome State Fault Refusal :=
  if s.faulted then .next (cmdExecuteAll s)
  else runWords s.prog (cmdExecuteAll s)

/-- R3, R160: one host command, taken whole. -/
def transact (c : Command) (s : State) : Host.Outcome State Fault Refusal :=
  match c with
  | .executeAll => executeAllAtomic s
  | .reset => .next (cmdReset s)
  | .installMask r m => .next (cmdInstallMask r m s)
  | .append iw => .next (cmdAppend iw s)
  | .readRegister r => .next (cmdReadRegister r s)
  | .readMask r => .next (cmdReadMask r s)
  | .readStatus => .next (cmdReadStatus s)

end Sys2Proof.Machine
end

