-- ==== Sys2Proof/Safety.lean ====
section
/-! DEFINITION. What the claims are stated in: the invariant of every state a host can bring the machine to, which lanes
of an instruction are active, and the shapes of an instruction's outcome. -/

namespace Sys2Proof.Machine

/-- What R31 to R33 say of the fault record: while FAULTED is 0 it reads 0; while FAULTED is 1 it names one of the four
kinds and an instruction of the program, a run has ended, and none is under way. -/
structure State.RecordOk (s : State) : Prop where
  clear : s.faulted = false → s.faultKind = 0#3 ∧ s.faultIndex = 0#32
  kind : s.faulted = true → 1 ≤ s.faultKind.toNat ∧ s.faultKind.toNat ≤ 4
  index : s.faulted = true → uint s.faultIndex < s.plen
  ended : s.faulted = true → s.executed = true ∧ s.running = false

/-- The invariant: legal parameters (R7); `N` registers of `L` lanes (R20) and `N` masks of `L` bits (R23); the memory in
canonical form and inside `[0, M)` (R34); at most `PROG_CAP` words, each well-formed (R26, R67); the fault record as R31
to R33 say; during a run the cursor within the program (R28). -/
structure State.Inv (s : State) : Prop where
  params : s.params.legal = true
  regsCount : s.regs.length = s.params.numRegs
  lanesCount : ∀ v ∈ s.regs, v.length = s.params.numLanes
  masksCount : s.masks.length = s.params.numRegs
  bitsCount : ∀ m ∈ s.masks, m.length = s.params.numLanes
  memCanonical : Memory.wf s.mem = true
  memInside : ∀ c ∈ s.mem, c.1 < s.params.memBytes
  progFits : s.plen ≤ s.params.progCap
  progWellFormed : ∀ w ∈ s.prog, wordWellFormed w = true
  record : s.RecordOk
  cursor : s.running = true → uint s.pc ≤ s.plen

/-- Lane `i` is active for an instruction with destination `d`: it exists, and its bit in the mask of `d` is set (R13,
R24). -/
def State.active (s : State) (d : Word) (i : Nat) : Prop :=
  i < s.params.numLanes ∧ s.maskBit (uint d) i = true

/-- `t`'s registers are `s`'s after the active lanes below `n` of register `d` have been written, lane `l` with
`value l`; every other lane of every register is as in `s` (R24). -/
def State.LanesWritten (s : State) (d : Word) (n : Nat) (value : Nat → Word) (t : State) : Prop :=
  (∀ l, l < n → s.active d l → t.lane (uint d) l = value l) ∧
  (∀ r l, ¬(r = uint d ∧ l < n ∧ s.active d l) → t.lane r l = s.lane r l)

/-- `t`'s memory is `s`'s after the active lanes below `n` of register `d` have stored, in ascending order, lane `l` the
byte `value l` at address `addr l`: a byte that some of them name holds what the highest such lane stored (R52), every
other byte is as in `s` (R42). -/
def State.BytesStored (s : State) (d : Word) (n : Nat) (addr : Nat → Nat) (value : Nat → Byte) (t : State) : Prop :=
  (∀ l, l < n → s.active d l → (∀ k, l < k → k < n → s.active d k → addr k ≠ addr l) →
    Memory.read t.mem (addr l) = value l) ∧
  (∀ a, (∀ l, l < n → s.active d l → addr l ≠ a) → Memory.read t.mem a = Memory.read s.mem a)

/-- The state R182 gives when fault kind number `k` is raised at `s`: the record written from the cursor, the run ended,
the response given; registers, masks, memory, program, cursor and parameters as they are. -/
def State.afterFault (s : State) (k : BitVec 3) (c : ResponseCode) : State :=
  { s with
    faulted := true
    faultKind := k
    faultIndex := s.pc
    executed := true
    running := false
    outbox := s.outbox ++ [{ code := c, data := .faultIndex s.pc }] }

/-- `exec i` completes at `s` having written exactly the active lanes of the destination, lane `l` with `value l`: it
answers a next state in which the cursor has moved on by one and nothing else has changed. -/
def WritesLanes (i : Instr) (s : State) (value : Nat → Word) : Prop :=
  ∃ t, exec i s = .next t ∧ t = { s with regs := t.regs, pc := s.pc + 1#32 } ∧
    s.LanesWritten i.dst s.params.numLanes value t

/-- `exec i` completes at `s` having stored exactly one byte for each active lane: the cursor has moved on by one and
nothing else has changed. -/
def StoresBytes (i : Instr) (s : State) (addr : Nat → Nat) (value : Nat → Byte) : Prop :=
  ∃ t, exec i s = .next t ∧ t = { s with mem := t.mem, pc := s.pc + 1#32 } ∧
    s.BytesStored i.dst s.params.numLanes addr value t

/-- `exec i` raises fault kind number `k` at lane `j` of `s` (R89, R183): the active lanes below `j` have been written,
nothing else has changed, and the fault has been entered. -/
def FaultsAfterWrites (i : Instr) (s : State) (j : Nat) (value : Nat → Word) (k : BitVec 3) (c : ResponseCode) : Prop :=
  ∃ u, u = { s with regs := u.regs } ∧ s.LanesWritten i.dst j value u ∧ exec i s = .next (u.afterFault k c)

/-- `exec i` raises fault kind number `k` at lane `j` of `s` (R89, R183): the active lanes below `j` have stored their
bytes, nothing else has changed, and the fault has been entered. -/
def FaultsAfterStores (i : Instr) (s : State) (j : Nat) (addr : Nat → Nat) (value : Nat → Byte) (k : BitVec 3)
    (c : ResponseCode) : Prop :=
  ∃ u, u = { s with mem := u.mem } ∧ s.BytesStored i.dst j addr value u ∧ exec i s = .next (u.afterFault k c)

/-- A run of `n` steps from `s` that meets no stop ends in `t`. -/
def Reaches (n : Nat) (s t : State) : Prop :=
  Sys2Proof.core.run n s = .next t

end Sys2Proof.Machine
end

