-- ==== Sys2Proof/Certificates/Slice0/Obligations.lean ====
section
/-! DEFINITION. The statements about the model, each from a numbered rule of spec/. `State.Inv`, `State.active`,
`WritesLanes`, `StoresBytes`, `FaultsAfterWrites`, `FaultsAfterStores` and `State.afterFault` are defined in
Sys2Proof/Safety.lean. Where a statement names `inbox`, `outbox` or `running`, those are the model's own fields
(entries 3 and 4). -/

open Sys2Proof Sys2Proof.Machine

/-! ### Encoding (spec/30_encoding.md) -/

/-- R61, R70: decoding the word of any instruction, every operand at every value, gives the instruction back. -/
def Obligations.DecodeOfEncode : Prop :=
  ∀ i : Instr, decode (encode i) = .ok i

/-- R61, R70: a word that decodes is the word of the instruction it decodes to: no bit of it is dropped. -/
def Obligations.EncodeOfDecode : Prop :=
  ∀ (w : IWord) (i : Instr), decode w = .ok i → encode i = w

/-- R67: the two forms of the well-formedness test agree, the words that pass are those that decode (whatever the
opcode), and `append` refuses the others with MalformedRecord and stores nothing. -/
def Obligations.WellFormedWordsDecode : Prop :=
  ∀ w : IWord,
    ((w.extractLsb' 10 22 = 0#22 ∧ (w.extractLsb' 4 4).toNat ≤ 7) ↔ (w.extractLsb' 0 32 &&& 0xFFFFFC80#32) = 0#32) ∧
    ((w.extractLsb' 0 32 &&& 0xFFFFFC80#32) = 0#32 ↔ ∃ i, decode w = .ok i) ∧
    ∀ s : State, s.faulted = false → (w.extractLsb' 0 32 &&& 0xFFFFFC80#32) ≠ 0#32 →
      takeCommand (.append w) s = { s with outbox := s.outbox ++ [{ code := .malformedRecord, data := .none }] }

/-- R71: match and mask on W0 pick the instruction, for every row of the opcode map. -/
def Obligations.MatchAndMaskPickTheInstruction : Prop :=
  ∀ w : IWord,
    ((w.extractLsb' 0 32 &&& 0xFFFFFC8F#32) = 0x0#32 ↔ ∃ t d a b, decode w = .ok (.mov t d a b)) ∧
    ((w.extractLsb' 0 32 &&& 0xFFFFFC8F#32) = 0x1#32 ↔ ∃ t d a b, decode w = .ok (.add t d a b)) ∧
    ((w.extractLsb' 0 32 &&& 0xFFFFFC8F#32) = 0x2#32 ↔ ∃ t d a b, decode w = .ok (.sub t d a b)) ∧
    ((w.extractLsb' 0 32 &&& 0xFFFFFC8F#32) = 0x3#32 ↔ ∃ t d a b, decode w = .ok (.mul t d a b)) ∧
    ((w.extractLsb' 0 32 &&& 0xFFFFFC8F#32) = 0x4#32 ↔ ∃ t d a b, decode w = .ok (.div t d a b)) ∧
    ((w.extractLsb' 0 32 &&& 0xFFFFFC8F#32) = 0x5#32 ↔ ∃ t d a b, decode w = .ok (.load t d a b)) ∧
    ((w.extractLsb' 0 32 &&& 0xFFFFFC8F#32) = 0x6#32 ↔ ∃ t d a b, decode w = .ok (.store t d a b)) ∧
    ((w.extractLsb' 0 32 &&& 0xFFFFFC8F#32) = 0x7#32 ↔ ∃ t d a b, decode w = .ok (.and t d a b)) ∧
    ((w.extractLsb' 0 32 &&& 0xFFFFFC8F#32) = 0x8#32 ↔ ∃ t d a b, decode w = .ok (.or t d a b)) ∧
    ((w.extractLsb' 0 32 &&& 0xFFFFFC8F#32) = 0x9#32 ↔ ∃ t d a b, decode w = .ok (.xor t d a b)) ∧
    ((w.extractLsb' 0 32 &&& 0xFFFFFC8F#32) = 0xA#32 ↔ ∃ t d a b, decode w = .ok (.not t d a b)) ∧
    ((w.extractLsb' 0 32 &&& 0xFFFFFC8F#32) = 0xB#32 ↔ ∃ t d a b, decode w = .ok (.shl t d a b)) ∧
    ((w.extractLsb' 0 32 &&& 0xFFFFFC8F#32) = 0xC#32 ↔ ∃ t d a b, decode w = .ok (.shr t d a b)) ∧
    ((w.extractLsb' 0 32 &&& 0xFFFFFC8F#32) = 0xD#32 ↔ ∃ t d a b, decode w = .ok (.opc13 t d a b)) ∧
    ((w.extractLsb' 0 32 &&& 0xFFFFFC8F#32) = 0xE#32 ↔ ∃ t d a b, decode w = .ok (.opc14 t d a b)) ∧
    ((w.extractLsb' 0 32 &&& 0xFFFFFC8F#32) = 0xF#32 ↔ ∃ t d a b, decode w = .ok (.opc15 t d a b))

/-- R61, R64, R65, R66: the operands and the tag of a decoded instruction are the bits R61 places them at. -/
def Obligations.FieldsAreReadFromTheirBits : Prop :=
  ∀ (w : IWord) (i : Instr), decode w = .ok i →
    i.dst = w.extractLsb' 32 32 ∧
    i.src1 = (if w.getLsbD 8 then Src.imm (w.extractLsb' 64 32) else Src.reg (w.extractLsb' 64 32)) ∧
    i.src2 = (if w.getLsbD 9 then Src.imm (w.extractLsb' 96 32) else Src.reg (w.extractLsb' 96 32)) ∧
    (w.extractLsb' 4 4).toNat =
      (match i.dtype with | .s8 => 0 | .u8 => 1 | .s16 => 2 | .u16 => 3 | .s32 => 4 | .u32 => 5 | .f16 => 6 | .f32 => 7)

/-- R73 and the L1 examples of 95_test_vectors.md: a few words written out, one per family. -/
def Obligations.SampleWordsDecode : Prop :=
  decode (0x8#32 ++ 0x9#32 ++ 0x1#32 ++ 0x341#32) = .ok (.add .s32 0x1#32 (.imm 0x9#32) (.imm 0x8#32)) ∧
  decode (0x0#32 ++ 0x3#32 ++ 0x0#32 ++ 0x340#32) = .ok (.mov .s32 0x0#32 (.imm 0x3#32) (.imm 0x0#32)) ∧
  decode (0x2#32 ++ 0x1#32 ++ 0x3#32 ++ 0x44#32) = .ok (.div .s32 0x3#32 (.reg 0x1#32) (.reg 0x2#32)) ∧
  decode (0x0#32 ++ 0x5#32 ++ 0x7#32 ++ 0x245#32) = .ok (.load .s32 0x7#32 (.reg 0x5#32) (.imm 0x0#32)) ∧
  decode (0x0#32 ++ 0x5#32 ++ 0x6#32 ++ 0x246#32) = .ok (.store .s32 0x6#32 (.reg 0x5#32) (.imm 0x0#32)) ∧
  decode (0x2#32 ++ 0x1#32 ++ 0x0#32 ++ 0x47#32) = .ok (.and .s32 0x0#32 (.reg 0x1#32) (.reg 0x2#32)) ∧
  decode (0x0#32 ++ 0x0#32 ++ 0x0#32 ++ 0x34F#32) = .ok (.opc15 .s32 0x0#32 (.imm 0x0#32) (.imm 0x0#32))

/-- R62: a serialised word is 16 bytes, and byte `j` is `IW[8j+7 : 8j]`. The two clauses on decoding bytes that begin
with it (the bytes after the sixteenth are left over; an error is the word's own) are the model's choice (entry 12): the
spec's host passes exactly 16 bytes. -/
def Obligations.SerialisedWordIsLittleEndian : Prop :=
  ∀ (w : IWord) (rest : List Byte),
    (bytesOfWord w).length = 16 ∧
    (∀ j, j < 16 → (bytesOfWord w)[j]? = some (w.extractLsb' (8 * j) 8)) ∧
    (∀ i, decode w = .ok i → decodeBytes (bytesOfWord w ++ rest) = .ok (i, rest)) ∧
    (∀ e, decode w = .error e → decodeBytes (bytesOfWord w ++ rest) = .error e)

/-- R73: "With it, every well-formed word has a spelling": some line of the syntax appends exactly that word. The line
is the model's abstract syntax of a listing (entry 13). -/
def Obligations.EveryWellFormedWordHasASpelling : Prop :=
  ∀ (lanes : Nat) (w : IWord), wordWellFormed w = true →
    ∃ l : ListingLine, assembleLine lanes l = some (.append w)

/-- R74: what a MASK line installs and what RUN is. -/
def Obligations.MaskLinesInstallTheirBits : Prop :=
  ∀ (lanes n h : Nat), n < 2 ^ 32 →
    (h < 2 ^ lanes → ∃ m, assembleLine lanes (.mask n (.hex h)) = some (.installMask (BitVec.ofNat 32 n) m) ∧
      m.length = lanes ∧ ∀ i, i < lanes → m[i]? = some (h.testBit i)) ∧
    (∃ m, assembleLine lanes (.mask n .all) = some (.installMask (BitVec.ofNat 32 n) m) ∧
      m.length = lanes ∧ ∀ i, i < lanes → m[i]? = some true) ∧
    (∃ m, assembleLine lanes (.mask n .none) = some (.installMask (BitVec.ofNat 32 n) m) ∧
      m.length = lanes ∧ ∀ i, i < lanes → m[i]? = some false) ∧
    assembleLine lanes .run = some .executeAll

/-! ### Validation and operands (spec/40_execution.md) -/

/-- R84, R63, R85: an instruction of any opcode whose DST, register-form SRC1 or register-form SRC2 is outside `[0, N)`
faults InvalidRegister with nothing written; one without such a field never does, whatever its immediates. -/
def Obligations.ValidationComesBeforeAnyLane : Prop :=
  ∀ (i : Instr) (s : State),
    ((s.params.numRegs ≤ uint i.dst ∨
        (∃ f, i.src1 = .reg f ∧ s.params.numRegs ≤ uint f) ∨ (∃ f, i.src2 = .reg f ∧ s.params.numRegs ≤ uint f)) →
      exec i s = .next (s.afterFault 1 .invalidRegister)) ∧
    (uint i.dst < s.params.numRegs → (∀ f, i.src1 = .reg f → uint f < s.params.numRegs) →
      (∀ f, i.src2 = .reg f → uint f < s.params.numRegs) → s.faulted = false →
      ∃ t, exec i s = .next t ∧ (t.faulted = true → t.faultKind ≠ 1))

/-- R86: an immediate is the same scalar in every lane, a register gives its own lane. -/
def Obligations.OperandResolution : Prop :=
  ∀ (s : State) (l : Nat) (x : Word),
    operand (.imm x) l s = x ∧ operand (.reg x) l s = (s.regs.getD (uint x) []).getD l 0#32

/-! ### The instructions' results -/

/-- R100: MOV writes the resolved SRC1 to every active lane of the destination, and nothing else changes. -/
def Obligations.MovCopiesItsSource : Prop :=
  ∀ (s : State) (ty : DType) (d : Word) (a b : Src), s.Inv →
    (Instr.mov ty d a b).validFor s.params.numRegs = true →
    WritesLanes (.mov ty d a b) s (fun l => operand a l s)

/-- R101, R88: ADD writes the wrapped signed sum of the operands as they were before the instruction. -/
def Obligations.AddWritesTheWrappedSum : Prop :=
  ∀ (s : State) (ty : DType) (d : Word) (a b : Src), s.Inv →
    (Instr.add ty d a b).validFor s.params.numRegs = true →
    WritesLanes (.add ty d a b) s (fun l => wrap32 (sint (operand a l s) + sint (operand b l s)))

/-- R102, R88: SUB writes the wrapped difference, first operand minus second. -/
def Obligations.SubWritesTheWrappedDifference : Prop :=
  ∀ (s : State) (ty : DType) (d : Word) (a b : Src), s.Inv →
    (Instr.sub ty d a b).validFor s.params.numRegs = true →
    WritesLanes (.sub ty d a b) s (fun l => wrap32 (sint (operand a l s) - sint (operand b l s)))

/-- R103, R88: MUL writes the low 32 bits of the signed product. -/
def Obligations.MulWritesTheLowProduct : Prop :=
  ∀ (s : State) (ty : DType) (d : Word) (a b : Src), s.Inv →
    (Instr.mul ty d a b).validFor s.params.numRegs = true →
    WritesLanes (.mul ty d a b) s (fun l => wrap32 (sint (operand a l s) * sint (operand b l s)))

/-- R105: the product's low 32 bits are the same pattern for signed and unsigned operands, and sum, difference and
product are the two's-complement operations on patterns. -/
def Obligations.WrappedArithmeticIgnoresSignedness : Prop :=
  ∀ a b : Word,
    wrap32 (sint a + sint b) = a + b ∧ wrap32 (sint a - sint b) = a - b ∧ wrap32 (sint a * sint b) = a * b ∧
    wrap32 (sint a * sint b) = wrap32 ((uint a : Int) * (uint b : Int))

/-- R104, R89, R106: DIV with no zero divisor in an active lane writes the truncated quotients (`0x80000000` for
`-2^31 / -1`); otherwise it faults DivideByZero at the lowest such lane with the active lanes below it written and
nothing else changed. -/
def Obligations.DivLaneByLane : Prop :=
  ∀ (s : State) (ty : DType) (d : Word) (a b : Src), s.Inv →
    (Instr.div ty d a b).validFor s.params.numRegs = true →
    let quotient := fun l : Nat =>
      if sint (operand a l s) = -2 ^ 31 ∧ sint (operand b l s) = -1 then 0x80000000#32
      else wrap32 (Int.tdiv (sint (operand a l s)) (sint (operand b l s)))
    ((∀ l, s.active d l → sint (operand b l s) ≠ 0) → WritesLanes (.div ty d a b) s quotient) ∧
    (∀ j, s.active d j → sint (operand b j s) = 0 → (∀ l, l < j → s.active d l → sint (operand b l s) ≠ 0) →
      FaultsAfterWrites (.div ty d a b) s j quotient 3 .divideByZero)

/-- R120, R43, R122, R89: LOAD with every active lane's address in `[0, M)` writes the sign-extended bytes; otherwise it
faults OutOfBoundsAccess at the lowest such lane with the active lanes below it loaded and nothing else changed. -/
def Obligations.LoadLaneByLane : Prop :=
  ∀ (s : State) (ty : DType) (d : Word) (a b : Src), s.Inv →
    (Instr.load ty d a b).validFor s.params.numRegs = true →
    let inside := fun l : Nat => 0 ≤ sint (operand a l s) ∧ sint (operand a l s) < (s.params.memBytes : Int)
    let loaded := fun l : Nat => (Memory.read s.mem (sint (operand a l s)).toNat).signExtend 32
    ((∀ l, s.active d l → inside l) → WritesLanes (.load ty d a b) s loaded) ∧
    (∀ j, s.active d j → ¬inside j → (∀ l, l < j → s.active d l → inside l) →
      FaultsAfterWrites (.load ty d a b) s j loaded 2 .outOfBoundsAccess)

/-- R121, R52, R43, R122, R89: STORE with every active lane's address in `[0, M)` stores each active lane's low byte, the
highest lane winning where lanes name one byte; otherwise it faults OutOfBoundsAccess at the lowest such lane with the
bytes of the active lanes below it stored and nothing else changed. No register is written. -/
def Obligations.StoreLaneByLane : Prop :=
  ∀ (s : State) (ty : DType) (d : Word) (a b : Src), s.Inv →
    (Instr.store ty d a b).validFor s.params.numRegs = true →
    let inside := fun l : Nat => 0 ≤ sint (operand a l s) ∧ sint (operand a l s) < (s.params.memBytes : Int)
    let address := fun l : Nat => (sint (operand a l s)).toNat
    let lowByte := fun l : Nat => (s.lane (uint d) l).extractLsb' 0 8
    ((∀ l, s.active d l → inside l) → StoresBytes (.store ty d a b) s address lowByte) ∧
    (∀ j, s.active d j → ¬inside j → (∀ l, l < j → s.active d l → inside l) →
      FaultsAfterStores (.store ty d a b) s j address lowByte 2 .outOfBoundsAccess)

/-- R140: each declared opcode without semantics faults UnsupportedInstruction if some lane is active, with nothing
written, and completes with no effect if none is. -/
def Obligations.DeclaredOpcodesFaultAtTheFirstActiveLane : Prop :=
  ∀ (s : State) (ty : DType) (d : Word) (a b : Src) (i : Instr),
    i ∈ [Instr.and ty d a b, .or ty d a b, .xor ty d a b, .not ty d a b, .shl ty d a b, .shr ty d a b] →
    i.validFor s.params.numRegs = true →
    ((∃ l, s.active d l) → exec i s = .next (s.afterFault 4 .unsupportedInstruction)) ∧
    ((∀ l, ¬s.active d l) → exec i s = .next { s with pc := s.pc + 1#32 })

/-- R141: the unrecognised opcodes behave the same. -/
def Obligations.UnrecognisedOpcodesFaultAtTheFirstActiveLane : Prop :=
  ∀ (s : State) (ty : DType) (d : Word) (a b : Src) (i : Instr),
    i ∈ [Instr.opc13 ty d a b, .opc14 ty d a b, .opc15 ty d a b] →
    i.validFor s.params.numRegs = true →
    ((∃ l, s.active d l) → exec i s = .next (s.afterFault 4 .unsupportedInstruction)) ∧
    ((∀ l, ¬s.active d l) → exec i s = .next { s with pc := s.pc + 1#32 })

/-- R90: with no active lane, every instruction that passes validation completes with no effect and no fault. -/
def Obligations.NoActiveLaneNoEffect : Prop :=
  ∀ (i : Instr) (s : State), i.validFor s.params.numRegs = true → (∀ l, ¬s.active i.dst l) →
    exec i s = .next { s with pc := s.pc + 1#32 }

/-- R66: two words that differ only in a legal DTYPE behave identically. -/
def Obligations.DataTypeIsInert : Prop :=
  ∀ (w v : IWord) (i j : Instr), decode w = .ok i → decode v = .ok j →
    (∀ k, k < 128 → ¬(4 ≤ k ∧ k < 8) → w.getLsbD k = v.getLsbD k) →
    ∀ s : State, exec i s = exec j s

/-- R123: STORE then LOAD at the same address gives the stored lane's low byte, sign-extended: same low byte, and the
whole lane exactly when it lies in `[-128, 127]`. `l` is the highest active lane that stores to its address. -/
def Obligations.StoreThenLoadRoundTrip : Prop :=
  ∀ (s t u : State) (ty ty' : DType) (d e : Word) (a b b' : Src) (l : Nat), s.Inv →
    exec (.store ty d a b) s = .next t → t.faulted = false →
    exec (.load ty' e a b') t = .next u → u.faulted = false →
    s.active d l → s.active e l →
    (∀ k, l < k → s.active d k → sint (operand a k s) ≠ sint (operand a l s)) →
    u.lane (uint e) l = ((s.lane (uint d) l).extractLsb' 0 8).signExtend 32 ∧
    (u.lane (uint e) l).extractLsb' 0 8 = (s.lane (uint d) l).extractLsb' 0 8 ∧
    (u.lane (uint e) l = s.lane (uint d) l ↔
      -128 ≤ sint (s.lane (uint d) l) ∧ sint (s.lane (uint d) l) ≤ 127)

/-! ### Frames -/

/-- R22, R24, R25, R26, R106: whatever an instruction does, fault included, it changes no register lane but active lanes of its
destination, and no mask, no program word, no parameter and no waiting command; only STORE changes memory, and STORE and
the opcodes without semantics change no register. -/
def Obligations.InstructionFrame : Prop :=
  ∀ (i : Instr) (s t : State), exec i s = .next t →
    (∀ r l, ¬(r = uint i.dst ∧ s.active i.dst l) → t.lane r l = s.lane r l) ∧
    t.masks = s.masks ∧ t.prog = s.prog ∧ t.params = s.params ∧ t.inbox = s.inbox ∧
    (opcodeOf i ≠ 6 → ∀ k, Memory.read t.mem k = Memory.read s.mem k) ∧
    (6 ≤ (opcodeOf i).toNat → t.regs = s.regs)

/-- R42, R87: a STORE, fault included, changes no byte but those at the effective addresses of its active lanes. -/
def Obligations.StoreFrame : Prop :=
  ∀ (s t : State) (ty : DType) (d : Word) (a b : Src), s.Inv → exec (.store ty d a b) s = .next t →
    ∀ k, (∀ l, s.active d l → (sint (effectiveAddress a l s)).toNat ≠ k) →
      Memory.read t.mem k = Memory.read s.mem k

/-- R87, R88: an inactive lane plays no part: two states that differ only in the register lanes that are inactive for an
instruction come out with the same memory, cursor, fault record and responses, and the same active lanes. -/
def Obligations.InactiveLanesPlayNoPart : Prop :=
  ∀ (i : Instr) (s s' t t' : State), s.Inv → s'.Inv →
    s' = { s with regs := s'.regs } →
    (∀ r l, s.active i.dst l → s'.lane r l = s.lane r l) →
    exec i s = .next t → exec i s' = .next t' →
    t' = { t with regs := t'.regs } ∧ ∀ r l, s.active i.dst l → t'.lane r l = t.lane r l

/-! ### Faults (spec/60_exceptions.md) -/

/-- R182, R32, R180: an instruction either moves the cursor on and leaves the fault record, EXECUTED and the responses
alone, or enters a fault: FAULTED and EXECUTED set, FAULT_KIND the code of one of the four kinds, FAULT_INDEX the cursor,
the response with that code and index, the run ended. -/
def Obligations.FaultEntryWritesTheRecord : Prop :=
  ∀ (i : Instr) (s : State), ∃ t, exec i s = .next t ∧
    ((t = { s with regs := t.regs, mem := t.mem, pc := s.pc + 1#32 }) ∨
     (∃ k c, ((k, c) ∈ [((1 : BitVec 3), ResponseCode.invalidRegister), (2, .outOfBoundsAccess), (3, .divideByZero),
        (4, .unsupportedInstruction)]) ∧
      t.faulted = true ∧ t.executed = true ∧ t.running = false ∧ t.faultKind = k ∧ t.faultIndex = s.pc ∧
      t.pc = s.pc ∧ t.outbox = s.outbox ++ [{ code := c, data := .faultIndex s.pc }] ∧
      t.masks = s.masks ∧ t.prog = s.prog))

/-- R180, R185: the numbers of the response codes, and that a fault's kind code is its response's number. -/
def Obligations.CodesAreNumbered : Prop :=
  ResponseCode.ok.number = 0 ∧ ResponseCode.invalidRegister.number = 1 ∧ ResponseCode.outOfBoundsAccess.number = 2 ∧
  ResponseCode.divideByZero.number = 3 ∧ ResponseCode.unsupportedInstruction.number = 4 ∧
  ResponseCode.malformedRecord.number = 5 ∧ ResponseCode.programFull.number = 6 ∧
  ResponseCode.engineFaulted.number = 7 ∧ ∀ f : FaultKind, f.code.toNat = f.response.number

/-- R187: the opcode decides which kind a lane can raise: DIV only 3, LOAD and STORE only 2, opcodes 7 to 15 only 4; MOV,
ADD, SUB and MUL raise none in their lanes. -/
def Obligations.OpcodeDecidesTheFaultKind : Prop :=
  ∀ (i : Instr) (s t : State), s.faulted = false → i.validFor s.params.numRegs = true → exec i s = .next t →
    t.faulted = true →
    (opcodeOf i = 4 ∧ t.faultKind = 3) ∨ ((opcodeOf i = 5 ∨ opcodeOf i = 6) ∧ t.faultKind = 2) ∨
      (7 ≤ (opcodeOf i).toNat ∧ t.faultKind = 4)

/-- R184: while FAULTED is 1, `install_mask`, `append` and `execute_all` respond EngineFaulted and change nothing, and a
run of any number of steps with no `reset` waiting changes nothing but the commands waiting and the responses given. -/
def Obligations.FaultIsSticky : Prop :=
  ∀ s : State, s.Inv → s.faulted = true →
    (∀ c : Command, (c = .executeAll ∨ (∃ r m, c = .installMask r m) ∨ (∃ w, c = .append w)) →
      takeCommand c s = { s with outbox := s.outbox ++ [{ code := .engineFaulted, data := .none }] }) ∧
    (∀ n t, Command.reset ∉ s.inbox → Reaches n s t → t = { s with inbox := t.inbox, outbox := t.outbox })

/-! ### Memory (spec/20_memory.md) -/

/-- R41, R42: a byte written reads back as the low byte of the value, every other byte as before, and a write changes
nothing but memory and keeps the memory's canonical form. -/
def Obligations.MemoryReadsWhatWasWritten : Prop :=
  ∀ (s : State) (a v : Word), s.Inv → s.inRange a = true →
    (s.memWrite a v).memRead a = v.extractLsb' 0 8 ∧
    (∀ b, s.inRange b = true → b ≠ a → (s.memWrite a v).memRead b = s.memRead b) ∧
    s.memWrite a v = { s with mem := (s.memWrite a v).mem } ∧ Memory.wf (s.memWrite a v).mem = true

/-- R43: the address check, its four corners, and that no pattern with bit 31 set is in range. -/
def Obligations.AddressCheck : Prop :=
  ∀ s : State, s.params.legal = true →
    (∀ a : Word, s.inRange a = true ↔ 0 ≤ sint a ∧ sint a < (s.params.memBytes : Int)) ∧
    (∀ a : Word, a.getLsbD 31 = true → s.inRange a = false) ∧
    s.inRange 0xFFFFFFFF#32 = false ∧ s.inRange (BitVec.ofNat 32 s.params.memBytes) = false ∧
    s.inRange 0#32 = true ∧ s.inRange (BitVec.ofNat 32 (s.params.memBytes - 1)) = true

/-! ### The run (spec/40_execution.md) -/

/-- R80: during a run, a step whose cursor is on a word that decodes is exactly that instruction: the instruction itself
moves the cursor or enters a fault. -/
def Obligations.StepRunsTheDecodedInstruction : Prop :=
  ∀ (s : State) (w : IWord) (i : Instr), s.running = true → s.prog[uint s.pc]? = some w → decode w = .ok i →
    step s = exec i s

/-- R80: a run whose cursor has reached PLEN ends: EXECUTED set, response OK, nothing else. -/
def Obligations.RunEndsAtTheEndOfTheProgram : Prop :=
  ∀ s : State, s.running = true → s.plen ≤ uint s.pc →
    step s = .next { s with
      executed := true, running := false, outbox := s.outbox ++ [{ code := .ok, data := .none }] }

/-- R80: a run with no program does nothing but set EXECUTED and respond OK (the cursor is set to 0). -/
def Obligations.EmptyRunOnlySetsExecuted : Prop :=
  ∀ s : State, s.faulted = false → s.running = false → s.prog = [] →
    transact .executeAll s = .next { s with
      pc := 0#32, executed := true, outbox := s.outbox ++ [{ code := .ok, data := .none }] }

/-- R80: in a run from the first instruction the cursor takes the values 0, 1, 2, ... in turn, one a step, until a fault
or the end: after `k` steps of a run still under way it is `k`, and the program is the one it started with. -/
def Obligations.CursorVisitsEachInstructionInOrder : Prop :=
  ∀ (s t : State) (k : Nat), s.Inv → s.running = true → s.pc = 0#32 → s.inbox = [] → Reaches k s t →
    t.running = true → uint t.pc = k ∧ k ≤ s.plen ∧ t.prog = s.prog ∧ t.masks = s.masks

/-- R170: no mask and no program word changes, and no command is taken, while a run is under way. -/
def Obligations.MasksAndProgramAreConstantDuringARun : Prop :=
  ∀ s t : State, s.running = true → step s = .next t →
    t.masks = s.masks ∧ t.prog = s.prog ∧ t.inbox = s.inbox ∧ t.params = s.params

/-! ### The invariant and the whole machine -/

/-- R200, R202: the state after reset meets the invariant, for every legal choice of the parameters. -/
def Obligations.ResetMeetsTheInvariant : Prop :=
  State.reset.Inv ∧ ∀ p : Params, p.legal = true → (State.resetWith p).Inv

/-- R20, R23, R26, R28, R31 to R34, R67: every step keeps the invariant, from every state that meets it. -/
def Obligations.EveryStepKeepsTheInvariant : Prop :=
  ∀ s t : State, s.Inv → step s = .next t → t.Inv

/-- R67, R180: from a state that meets the invariant a step never stops: every fault of the spec is taken, and no stored
word is malformed. -/
def Obligations.NoStepStops : Prop :=
  ∀ s : State, s.Inv → ∃ t, step s = .next t

/-- R3, R80, R205: each host command is one atomic transaction: the machine, one instruction a step, takes the command and
within `PLEN + 2` steps stands where the whole transaction leads, ready for the next command. -/
def Obligations.StepsRefineTheAtomicTransaction : Prop :=
  ∀ (s : State) (c : Command) (cs : List Command), s.Inv → s.running = false → s.inbox = c :: cs →
    ∃ n t, n ≤ s.plen + 2 ∧ Reaches n s t ∧ transact c { s with inbox := cs } = .next t ∧
      t.running = false ∧ t.inbox = cs

/-! ### The host interface (spec/44_host_interface.md) and reset (spec/70_reset_and_hazards.md) -/

/-- R170, R195: between runs a step takes the oldest command waiting; with none it keeps all the state. -/
def Obligations.StepTakesTheOldestCommand : Prop :=
  ∀ s : State, s.running = false →
    (s.inbox = [] → step s = .next s) ∧
    (∀ c cs, s.inbox = c :: cs → step s = .next (takeCommand c { s with inbox := cs }))

/-- R200: every piece of state at its reset value, for any parameters. -/
def Obligations.ResetStateIsAllZero : Prop :=
  ∀ p : Params,
    (State.resetWith p).params = p ∧ (State.resetWith p).regs.length = p.numRegs ∧
    (State.resetWith p).masks.length = p.numRegs ∧
    (∀ r l, (State.resetWith p).lane r l = 0#32) ∧ (∀ r l, (State.resetWith p).maskBit r l = false) ∧
    (∀ k, Memory.read (State.resetWith p).mem k = 0#8) ∧ (State.resetWith p).prog = [] ∧
    (State.resetWith p).plen = 0 ∧ (State.resetWith p).pc = 0#32 ∧ (State.resetWith p).executed = false ∧
    (State.resetWith p).faulted = false ∧ (State.resetWith p).faultKind = 0#3 ∧
    (State.resetWith p).faultIndex = 0#32

/-- R161: `reset` is always accepted, sets every piece of state to its reset value, keeps the parameters and responds OK.
That the commands still waiting and the responses given stay is the model's choice (entry 4). -/
def Obligations.ResetCommandRestoresTheResetState : Prop :=
  ∀ s : State,
    takeCommand .reset s = { State.resetWith s.params with
      inbox := s.inbox, outbox := s.outbox ++ [{ code := .ok, data := .none }] }

/-- R162: `install_mask`: EngineFaulted, else InvalidRegister, else the mask of that register is the given bits and no
other mask and nothing else changes. -/
def Obligations.InstallMaskSetsOneMask : Prop :=
  ∀ (s : State) (r : Word) (m : List Bool), s.Inv → m.length = s.params.numLanes →
    ∃ t, takeCommand (.installMask r m) s = t ∧
    (s.faulted = true → t = { s with outbox := s.outbox ++ [{ code := .engineFaulted, data := .none }] }) ∧
    (s.faulted = false → s.params.numRegs ≤ uint r →
      t = { s with outbox := s.outbox ++ [{ code := .invalidRegister, data := .none }] }) ∧
    (s.faulted = false → uint r < s.params.numRegs →
      t = { s with masks := t.masks, outbox := s.outbox ++ [{ code := .ok, data := .none }] } ∧
      t.masks[uint r]? = some m ∧ ∀ q, q ≠ uint r → t.masks[q]? = s.masks[q]?)

/-- R167: for every valid register and mask, `install_mask(r, m)` followed by `read_mask(r)` returns exactly `m`. -/
def Obligations.InstalledMaskReadsBack : Prop :=
  ∀ (s : State) (r : Word) (m : List Bool), s.Inv → s.faulted = false → uint r < s.params.numRegs →
    m.length = s.params.numLanes →
    (takeCommand (.readMask r) (takeCommand (.installMask r m) s)).outbox =
      s.outbox ++ [{ code := .ok, data := .none }, { code := .ok, data := .mask m }]

/-- R163: `append`: EngineFaulted, else MalformedRecord, else ProgramFull, else the word is added at the end and nothing
else changes. -/
def Obligations.AppendAddsAtTheEnd : Prop :=
  ∀ (s : State) (w : IWord),
    (s.faulted = true →
      takeCommand (.append w) s = { s with outbox := s.outbox ++ [{ code := .engineFaulted, data := .none }] }) ∧
    (s.faulted = false → (w.extractLsb' 0 32 &&& 0xFFFFFC80#32) ≠ 0#32 →
      takeCommand (.append w) s = { s with outbox := s.outbox ++ [{ code := .malformedRecord, data := .none }] }) ∧
    (s.faulted = false → (w.extractLsb' 0 32 &&& 0xFFFFFC80#32) = 0#32 → s.prog.length = s.params.progCap →
      takeCommand (.append w) s = { s with outbox := s.outbox ++ [{ code := .programFull, data := .none }] }) ∧
    (s.faulted = false → (w.extractLsb' 0 32 &&& 0xFFFFFC80#32) = 0#32 → s.prog.length ≠ s.params.progCap →
      takeCommand (.append w) s =
        { s with prog := s.prog ++ [w], outbox := s.outbox ++ [{ code := .ok, data := .none }] })

/-- R164, R91: `execute_all` is refused while FAULTED is 1; otherwise, EXECUTED or not, the run starts at the first
instruction from the registers, masks and memory as they are. -/
def Obligations.ExecuteAllStartsFromTheCurrentState : Prop :=
  ∀ s : State,
    (s.faulted = true → takeCommand .executeAll s =
      { s with outbox := s.outbox ++ [{ code := .engineFaulted, data := .none }] }) ∧
    (s.faulted = false → takeCommand .executeAll s = { s with pc := 0#32, running := true })

/-- R166: `read_register` returns the `L` lanes of the register, in every state, and changes nothing; an index outside
`[0, N)` responds InvalidRegister. -/
def Obligations.ReadRegisterReturnsTheLanes : Prop :=
  ∀ (s : State) (r : Word), s.Inv →
    (s.params.numRegs ≤ uint r → takeCommand (.readRegister r) s =
      { s with outbox := s.outbox ++ [{ code := .invalidRegister, data := .none }] }) ∧
    (uint r < s.params.numRegs → ∃ vs : List Word, takeCommand (.readRegister r) s =
        { s with outbox := s.outbox ++ [{ code := .ok, data := .lanes vs }] } ∧
      vs.length = s.params.numLanes ∧ ∀ l, l < s.params.numLanes → vs[l]? = some (s.lane (uint r) l))

/-- R33, R168: `read_status` responds OK in every state and changes nothing; STATUS holds EXECUTED, FAULTED, FAULT_KIND
and zeros, FAULT_INDEX the index, PROG_LEN the program's length. -/
def Obligations.ReadStatusLayout : Prop :=
  ∀ s : State, s.Inv → ∃ st fi pl : Word,
    takeCommand .readStatus s = { s with outbox := s.outbox ++ [{ code := .ok, data := .status st fi pl }] } ∧
    st.getLsbD 0 = s.executed ∧ st.getLsbD 1 = s.faulted ∧ st.extractLsb' 2 3 = s.faultKind ∧
    st.extractLsb' 5 27 = 0#27 ∧ fi = s.faultIndex ∧ uint pl = s.prog.length ∧
    (s.faulted = false → fi = 0#32 ∧ s.faultKind = 0#3) ∧ (s.faulted = true → uint fi < uint pl) ∧
    s.faultKind.toNat ≤ 4 ∧ uint pl ≤ s.params.progCap

/-- R169: a command that responds with an error changes no state at all, so it sets no fault. That taking a command, apart
from the run it may start, sets no fault either rests on the model's steps: `execute_all` only starts the run here, and
the run's own steps may fault (entry 3). -/
def Obligations.CommandErrorsChangeNothing : Prop :=
  ∀ (c : Command) (s : State),
    (∀ r : Response, (takeCommand c s).outbox = s.outbox ++ [r] → r.code ≠ .ok →
      takeCommand c s = { s with outbox := s.outbox ++ [r] } ∧
      r.code ∈ [ResponseCode.invalidRegister, .malformedRecord, .programFull, .engineFaulted]) ∧
    ((takeCommand c s).faulted = true → s.faulted = true)

/-- R25: a mask changes only when the host's `install_mask` for that register, or `reset`, is taken. -/
def Obligations.MasksChangeOnlyByInstallMask : Prop :=
  ∀ (s t : State) (q : Nat), step s = .next t → t.masks[q]? ≠ s.masks[q]? →
    s.running = false ∧ ∃ c cs, s.inbox = c :: cs ∧ (c = .reset ∨ ∃ r m, c = .installMask r m ∧ uint r = q)

/-- R26: the program store only grows, by one well-formed word an `append` at a time and never past PROG_CAP, until a
`reset` empties it. -/
def Obligations.ProgramIsAppendOnly : Prop :=
  ∀ s t : State, s.Inv → step s = .next t →
    t.prog = s.prog ∨
    (∃ w cs, s.inbox = .append w :: cs ∧ wordWellFormed w = true ∧ s.plen < s.params.progCap ∧
      t.prog = s.prog ++ [w]) ∨
    (∃ cs, s.inbox = .reset :: cs ∧ t.prog = [])

/-- R57, R22: no host command but `reset` changes a byte of memory or a register lane. -/
def Obligations.HostNeverWritesMemoryOrRegisters : Prop :=
  ∀ s t : State, s.running = false → (∀ cs, s.inbox ≠ .reset :: cs) → step s = .next t →
    t.mem = s.mem ∧ t.regs = s.regs

/-- R30: EXECUTED is set exactly when a run ends, completing or faulting, and only `reset` clears it. -/
def Obligations.ExecutedRecordsThatARunEnded : Prop :=
  ∀ s t : State, step s = .next t →
    (s.running = true → t.running = false → t.executed = true) ∧
    (s.executed = true → t.executed = false → s.running = false ∧ ∃ cs, s.inbox = .reset :: cs) ∧
    (s.executed = false → t.executed = true → s.running = true ∧ t.running = false)

/-- R7: the parameters are fixed for the life of an engine: no step changes them. -/
def Obligations.ParametersNeverChange : Prop :=
  ∀ s t : State, step s = .next t → t.params = s.params
end

