-- ==== Sys2Proof/Laws/Decode.lean ====
section
/-! SUPPORT. The word's layout (spec/30_encoding.md R61, R62): its fields and its bytes take it apart and put it together
again without losing a bit, and each small table of the decoder is the inverse of the encoder's. -/

namespace Sys2Proof

/-- R61: a word built from fields has those fields. -/
theorem fieldsOf_wordOf (f : Fields) : fieldsOf (wordOf f) = f := by
  obtain ⟨opc, dtype, i1, i2, rsv, dst, src1, src2⟩ := f
  simp (disch := decide) only [fieldsOf, wordOf, Fields.mk.injEq, BitVec.extractLsb'_append_eq_of_le,
    BitVec.extractLsb'_append_eq_of_add_le, BitVec.extractLsb'_eq_self, BitVec.getLsbD_append]
  simp

theorem ofBool_getLsbD (w : IWord) (k : Nat) : BitVec.ofBool (w.getLsbD k) = w.extractLsb' k 1 := by
  apply BitVec.eq_of_getLsbD_eq
  intro j hj
  obtain rfl : j = 0 := by omega
  simp

/-- R61: the fields of a word hold every bit of it. -/
theorem wordOf_fieldsOf (w : IWord) : wordOf (fieldsOf w) = w := by
  simp only [wordOf, fieldsOf, ofBool_getLsbD]
  simp (disch := rfl) only [BitVec.extractLsb'_append_extractLsb'_eq_extractLsb']
  simp

/-- R62: a word taken from its own serialised bytes is the word, and the bytes after it are left. -/
theorem wordOfBytes_bytesOfWord (w : IWord) (rest : List Byte) :
    wordOfBytes (bytesOfWord w ++ rest) = some (w, rest) := by
  have hr : List.range 16 = [0, 1, 2, 3, 4, 5, 6, 7, 8, 9, 10, 11, 12, 13, 14, 15] := rfl
  simp only [bytesOfWord, hr, List.map_cons, List.map_nil, List.cons_append, List.nil_append, wordOfBytes, byteOfWord,
    Option.some.injEq, Prod.mk.injEq, and_true]
  simp (disch := rfl) only [BitVec.extractLsb'_append_extractLsb'_eq_extractLsb']
  simp

theorem dtypeOfCode_dtypeCode (t : DType) : dtypeOfCode (dtypeCode t) = some t := by
  cases t <;> rfl

/-- R66: a code that has a tag is the code of that tag. -/
theorem dtypeCode_of_dtypeOfCode {c : BitVec 4} {t : DType} (h : dtypeOfCode c = some t) : dtypeCode t = c := by
  revert c
  cases t <;> decide

/-- R66, R67: the codes that have a tag are 0 to 7. -/
theorem dtypeOfCode_isSome (c : BitVec 4) : (dtypeOfCode c).isSome = decide (c.toNat ≤ 7) := by
  revert c; decide

theorem srcOf_flag_field (s : Src) : srcOf (srcFlag s) (srcField s) = s := by
  cases s <;> rfl

theorem srcFlag_srcOf (b : Bool) (f : Word) : srcFlag (srcOf b f) = b := by
  cases b <;> rfl

theorem srcField_srcOf (b : Bool) (f : Word) : srcField (srcOf b f) = f := by
  cases b <;> rfl

/-- R60, R71: the sixteen opcode values and the sixteen instructions name each other. -/
theorem instrOf_opcodeOf (i : Instr) : instrOf (opcodeOf i) i.dtype i.dst i.src1 i.src2 = i := by
  cases i <;> rfl

/-- An opcode value is one of sixteen. -/
theorem opcode_cases (c : BitVec 4) :
    c = 0 ∨ c = 1 ∨ c = 2 ∨ c = 3 ∨ c = 4 ∨ c = 5 ∨ c = 6 ∨ c = 7 ∨ c = 8 ∨ c = 9 ∨ c = 10 ∨ c = 11 ∨ c = 12 ∨
      c = 13 ∨ c = 14 ∨ c = 15 := by
  revert c; decide

section
variable (c : BitVec 4) (t : DType) (d : Word) (a b : Src)

theorem opcodeOf_instrOf : opcodeOf (instrOf c t d a b) = c := by
  rcases opcode_cases c with h | h | h | h | h | h | h | h | h | h | h | h | h | h | h | h <;> subst h <;> rfl

theorem dtype_instrOf : (instrOf c t d a b).dtype = t := by
  rcases opcode_cases c with h | h | h | h | h | h | h | h | h | h | h | h | h | h | h | h <;> subst h <;> rfl

theorem dst_instrOf : (instrOf c t d a b).dst = d := by
  rcases opcode_cases c with h | h | h | h | h | h | h | h | h | h | h | h | h | h | h | h <;> subst h <;> rfl

theorem src1_instrOf : (instrOf c t d a b).src1 = a := by
  rcases opcode_cases c with h | h | h | h | h | h | h | h | h | h | h | h | h | h | h | h <;> subst h <;> rfl

theorem src2_instrOf : (instrOf c t d a b).src2 = b := by
  rcases opcode_cases c with h | h | h | h | h | h | h | h | h | h | h | h | h | h | h | h <;> subst h <;> rfl

end

/-- What a successful decode says: reserved bits zero, a tag, and the instruction built from the fields. -/
theorem decode_ok {w : IWord} {i : Instr} :
    decode w = .ok i ↔ (fieldsOf w).rsv = 0#22 ∧ ∃ t, dtypeOfCode (fieldsOf w).dtype = some t ∧
      i = instrOf (fieldsOf w).opc t (fieldsOf w).dst (srcOf (fieldsOf w).i1 (fieldsOf w).src1)
        (srcOf (fieldsOf w).i2 (fieldsOf w).src2) := by
  simp only [decode]
  by_cases hr : (fieldsOf w).rsv = 0#22
  · generalize dtypeOfCode (fieldsOf w).dtype = oc
    cases oc with
    | none => simp [hr]
    | some t =>
      simp only [hr, ne_eq, not_true_eq_false, if_false, Except.ok.injEq, true_and, Option.some.injEq,
        exists_eq_left']
      exact eq_comm
  · simp [hr]

theorem dtype_code_le (c : BitVec 4) : c.toNat ≤ 7 ↔ c.getLsbD 3 = false := by
  revert c; decide

/-- R67: the mask test on `W0` is the two field tests, `RSV = 0` and `DTYPE <= 7`. -/
theorem wordWellFormed_iff (w : IWord) :
    wordWellFormed w = true ↔ (fieldsOf w).rsv = 0#22 ∧ (fieldsOf w).dtype.toNat ≤ 7 := by
  have high : ∀ j : Fin 22, (0xFFFFFC80#32).getLsbD (10 + j.val) = true := by decide
  have only : ∀ j : Fin 32, (0xFFFFFC80#32).getLsbD j.val = true → j.val = 7 ∨ 10 ≤ j.val := by decide
  simp only [wordWellFormed, beq_iff_eq, dtype_code_le, fieldsOf, BitVec.getLsbD_extractLsb']
  constructor
  · intro h
    have bit : ∀ j, j < 32 → (0xFFFFFC80#32).getLsbD j = true → w.getLsbD j = false := fun j hj hm => by
      have := congrArg (fun v => BitVec.getLsbD v j) h
      simpa only [BitVec.getLsbD_and, BitVec.getLsbD_extractLsb', hj, hm, Nat.zero_add, decide_true, Bool.true_and,
        Bool.and_true, BitVec.getLsbD_zero] using this
    refine ⟨BitVec.eq_of_getLsbD_eq fun j hj => ?_, ?_⟩
    · simpa [BitVec.getLsbD_extractLsb', hj] using bit (10 + j) (by omega) (high ⟨j, hj⟩)
    · simpa using bit 7 (by decide) (by decide)
  · rintro ⟨hr, hd⟩
    refine BitVec.eq_of_getLsbD_eq fun j hj => ?_
    by_cases hm : (0xFFFFFC80#32).getLsbD j = true
    · rcases only ⟨j, hj⟩ hm with h | h
      · simp only at h
        subst h
        simpa [BitVec.getLsbD_and, BitVec.getLsbD_extractLsb'] using hd
      · simp only at h
        have := congrArg (fun v => BitVec.getLsbD v (j - 10)) hr
        have e : 10 + (j - 10) = j := by omega
        have l : j - 10 < 22 := by omega
        simp only [BitVec.getLsbD_extractLsb', l, e, decide_true, Bool.true_and, BitVec.getLsbD_zero] at this
        simp [hj, this]
    · simp only [Bool.not_eq_true] at hm
      simp only [BitVec.getLsbD_and, hm, Bool.and_false, BitVec.getLsbD_zero]

/-- R67, R70: a word decodes exactly when it is well-formed. -/
theorem decode_isOk_iff (w : IWord) : (∃ i, decode w = .ok i) ↔ wordWellFormed w = true := by
  have hs := dtypeOfCode_isSome (fieldsOf w).dtype
  rw [wordWellFormed_iff]
  constructor
  · rintro ⟨i, hi⟩
    obtain ⟨hr, t, ht, -⟩ := decode_ok.mp hi
    rw [ht] at hs
    exact ⟨hr, by simpa using hs⟩
  · rintro ⟨hr, hd⟩
    obtain ⟨t, ht⟩ := Option.isSome_iff_exists.mp (hs.trans (decide_eq_true hd))
    exact ⟨_, decode_ok.mpr ⟨hr, t, ht, rfl⟩⟩

end Sys2Proof
end

