-- ==== Sys2Proof/Laws/Memory.lean ====
section
/-! SUPPORT. The memory's laws: every operation keeps the canonical form, a read after a write, and equal contents are
equal data (spec/20_memory.md R41, R42, R48). -/

namespace Sys2Proof.Machine

theorem Memory.wf_cons (a : Nat) (v : Byte) (m : Memory) :
    Memory.wf ((a, v) :: m) = true ↔ v ≠ unlistedByte ∧ (∀ c ∈ m, a < c.1) ∧ Memory.wf m = true := by
  simp [Memory.wf, and_assoc]

/-- An address below every listed one reads as unlisted. -/
theorem Memory.read_below (m : Memory) (k : Nat) (h : ∀ c ∈ m, k < c.1) : Memory.read m k = unlistedByte := by
  induction m with
  | nil => rfl
  | cons c m ih =>
    obtain ⟨a, w⟩ := c
    have hk : k < a := h (a, w) (by simp)
    simp only [Memory.read, if_neg (Nat.ne_of_gt hk)]
    exact ih fun c hc => h c (by simp [hc])

/-- What a write lists was listed before, or is the written address. -/
theorem Memory.mem_write {m : Memory} {k : Nat} {v : Byte} {c : Host.Cell} (h : c ∈ Memory.write m k v) :
    c ∈ m ∨ c = (k, v) := by
  induction m with
  | nil =>
    unfold Memory.write at h
    split at h <;> simp_all
  | cons d m ih =>
    obtain ⟨a, w⟩ := d
    unfold Memory.write at h
    split at h
    · split at h
      · exact .inl h
      · rcases List.mem_cons.mp h with rfl | h
        · exact .inr rfl
        · exact .inl h
    · split at h
      · split at h
        · exact .inl (by simp [h])
        · rcases List.mem_cons.mp h with rfl | h
          · exact .inr rfl
          · exact .inl (by simp [h])
      · rcases List.mem_cons.mp h with rfl | h
        · exact .inl (by simp)
        · rcases ih h with h | h
          · exact .inl (by simp [h])
          · exact .inr h

/-- A write keeps the canonical form. -/
theorem Memory.wf_write {m : Memory} (k : Nat) (v : Byte) (h : Memory.wf m = true) :
    Memory.wf (Memory.write m k v) = true := by
  induction m with
  | nil => unfold Memory.write; split <;> simp_all [Memory.wf]
  | cons c m ih =>
    obtain ⟨a, w⟩ := c
    obtain ⟨hw, hm, hwf⟩ := (Memory.wf_cons a w m).mp h
    unfold Memory.write
    split
    · rename_i hk
      split
      · exact h
      · rename_i hv
        refine (Memory.wf_cons k v _).mpr ⟨hv, ?_, h⟩
        intro c hc
        rcases List.mem_cons.mp hc with rfl | hc
        · exact hk
        · exact Nat.lt_trans hk (hm c hc)
    · split
      · rename_i hk
        subst hk
        split
        · exact hwf
        · rename_i hv
          exact (Memory.wf_cons a v m).mpr ⟨hv, hm, hwf⟩
      · rename_i hk hak
        refine (Memory.wf_cons a w _).mpr ⟨hw, ?_, ih hwf⟩
        intro c hc
        rcases Memory.mem_write hc with hc | rfl
        · exact hm c hc
        · simp only
          omega

/-- R41, R42: a read after a write gives the written byte at its address and the byte before everywhere else. -/
theorem Memory.read_write {m : Memory} (k : Nat) (v : Byte) (h : Memory.wf m = true) (j : Nat) :
    Memory.read (Memory.write m k v) j = if j = k then v else Memory.read m j := by
  induction m with
  | nil =>
    unfold Memory.write
    by_cases hj : j = k
    · subst hj; split <;> simp_all [Memory.read]
    · have : ¬k = j := fun e => hj e.symm
      split <;> simp_all [Memory.read]
  | cons c m ih =>
    obtain ⟨a, w⟩ := c
    obtain ⟨-, hm, hwf⟩ := (Memory.wf_cons a w m).mp h
    unfold Memory.write
    split
    · rename_i hk
      have below : Memory.read ((a, w) :: m) k = unlistedByte :=
        Memory.read_below _ k (by
          intro c hc
          rcases List.mem_cons.mp hc with rfl | hc
          · exact hk
          · exact Nat.lt_trans hk (hm c hc))
      split
      · rename_i hv
        by_cases hj : j = k
        · rw [if_pos hj, hj, below, hv]
        · rw [if_neg hj]
      · by_cases hj : j = k
        · simp [Memory.read, hj]
        · have : ¬k = j := fun e => hj e.symm
          simp [Memory.read, hj, this]
    · split
      · rename_i hk
        subst hk
        split
        · rename_i hv
          by_cases hj : j = a
          · rw [if_pos hj, hj, Memory.read_below m a hm, hv]
          · have : ¬a = j := fun e => hj e.symm
            simp [Memory.read, hj, this]
        · by_cases hj : j = a
          · simp [Memory.read, hj]
          · have : ¬a = j := fun e => hj e.symm
            simp [Memory.read, hj, this]
      · rename_i hk hak
        by_cases hj : a = j
        · subst hj
          simp [Memory.read, hak]
        · simp only [Memory.read, if_neg hj]
          exact ih hwf

/-- Two memories in canonical form that read alike everywhere are the same list. -/
theorem Memory.ext {m n : Memory} (hm : Memory.wf m = true) (hn : Memory.wf n = true)
    (h : ∀ k, Memory.read m k = Memory.read n k) : m = n := by
  induction m generalizing n with
  | nil =>
    cases n with
    | nil => rfl
    | cons d n =>
      obtain ⟨b, w⟩ := d
      have := h b
      have hw := ((Memory.wf_cons b w n).mp hn).1
      simp [Memory.read] at this
      exact absurd this.symm hw
  | cons c m ih =>
    obtain ⟨a, v⟩ := c
    obtain ⟨hv, hma, hmw⟩ := (Memory.wf_cons a v m).mp hm
    cases n with
    | nil =>
      have := h a
      simp [Memory.read] at this
      exact absurd this hv
    | cons d n =>
      obtain ⟨b, w⟩ := d
      obtain ⟨hw, hnb, hnw⟩ := (Memory.wf_cons b w n).mp hn
      have hab : a = b := by
        rcases Nat.lt_trichotomy a b with hlt | heq | hgt
        · have e := h a
          rw [Memory.read_below ((b, w) :: n) a (by
            intro c hc
            rcases List.mem_cons.mp hc with rfl | hc
            · exact hlt
            · exact Nat.lt_trans hlt (hnb c hc))] at e
          simp [Memory.read] at e
          exact absurd e hv
        · exact heq
        · have e := h b
          rw [Memory.read_below ((a, v) :: m) b (by
            intro c hc
            rcases List.mem_cons.mp hc with rfl | hc
            · exact hgt
            · exact Nat.lt_trans hgt (hma c hc))] at e
          simp [Memory.read] at e
          exact absurd e.symm hw
      subst hab
      have hvw : v = w := by simpa [Memory.read] using h a
      subst hvw
      congr 1
      refine ih hmw hnw fun k => ?_
      by_cases hk : a = k
      · subst hk
        rw [Memory.read_below m a hma, Memory.read_below n a hnb]
      · simpa [Memory.read, hk] using h k

end Sys2Proof.Machine
end

