-- ==== Sys2Proof/Laws/State.lean ====
section
/-! SUPPORT. What each named update of the state does to each field: one lemma a field, true by `rfl`. -/

namespace Sys2Proof.Machine

@[simp] theorem setLane_params (s : State) (r i : Nat) (v : Word) : (s.setLane r i v).params = s.params := rfl
@[simp] theorem setLane_regs (s : State) (r i : Nat) (v : Word) : (s.setLane r i v).regs = s.regs.set r ((s.regs.getD r []).set i v) := rfl
@[simp] theorem setLane_masks (s : State) (r i : Nat) (v : Word) : (s.setLane r i v).masks = s.masks := rfl
@[simp] theorem setLane_mem (s : State) (r i : Nat) (v : Word) : (s.setLane r i v).mem = s.mem := rfl
@[simp] theorem setLane_prog (s : State) (r i : Nat) (v : Word) : (s.setLane r i v).prog = s.prog := rfl
@[simp] theorem setLane_pc (s : State) (r i : Nat) (v : Word) : (s.setLane r i v).pc = s.pc := rfl
@[simp] theorem setLane_running (s : State) (r i : Nat) (v : Word) : (s.setLane r i v).running = s.running := rfl
@[simp] theorem setLane_executed (s : State) (r i : Nat) (v : Word) : (s.setLane r i v).executed = s.executed := rfl
@[simp] theorem setLane_faulted (s : State) (r i : Nat) (v : Word) : (s.setLane r i v).faulted = s.faulted := rfl
@[simp] theorem setLane_faultKind (s : State) (r i : Nat) (v : Word) : (s.setLane r i v).faultKind = s.faultKind := rfl
@[simp] theorem setLane_faultIndex (s : State) (r i : Nat) (v : Word) : (s.setLane r i v).faultIndex = s.faultIndex := rfl
@[simp] theorem setLane_inbox (s : State) (r i : Nat) (v : Word) : (s.setLane r i v).inbox = s.inbox := rfl
@[simp] theorem setLane_outbox (s : State) (r i : Nat) (v : Word) : (s.setLane r i v).outbox = s.outbox := rfl

@[simp] theorem memWrite_params (s : State) (a v : Word) : (s.memWrite a v).params = s.params := rfl
@[simp] theorem memWrite_regs (s : State) (a v : Word) : (s.memWrite a v).regs = s.regs := rfl
@[simp] theorem memWrite_masks (s : State) (a v : Word) : (s.memWrite a v).masks = s.masks := rfl
@[simp] theorem memWrite_mem (s : State) (a v : Word) : (s.memWrite a v).mem = Memory.write s.mem (sint a).toNat (v.extractLsb' 0 8) := rfl
@[simp] theorem memWrite_prog (s : State) (a v : Word) : (s.memWrite a v).prog = s.prog := rfl
@[simp] theorem memWrite_pc (s : State) (a v : Word) : (s.memWrite a v).pc = s.pc := rfl
@[simp] theorem memWrite_running (s : State) (a v : Word) : (s.memWrite a v).running = s.running := rfl
@[simp] theorem memWrite_executed (s : State) (a v : Word) : (s.memWrite a v).executed = s.executed := rfl
@[simp] theorem memWrite_faulted (s : State) (a v : Word) : (s.memWrite a v).faulted = s.faulted := rfl
@[simp] theorem memWrite_faultKind (s : State) (a v : Word) : (s.memWrite a v).faultKind = s.faultKind := rfl
@[simp] theorem memWrite_faultIndex (s : State) (a v : Word) : (s.memWrite a v).faultIndex = s.faultIndex := rfl
@[simp] theorem memWrite_inbox (s : State) (a v : Word) : (s.memWrite a v).inbox = s.inbox := rfl
@[simp] theorem memWrite_outbox (s : State) (a v : Word) : (s.memWrite a v).outbox = s.outbox := rfl

@[simp] theorem advance_params (s : State) : s.advance.params = s.params := rfl
@[simp] theorem advance_regs (s : State) : s.advance.regs = s.regs := rfl
@[simp] theorem advance_masks (s : State) : s.advance.masks = s.masks := rfl
@[simp] theorem advance_mem (s : State) : s.advance.mem = s.mem := rfl
@[simp] theorem advance_prog (s : State) : s.advance.prog = s.prog := rfl
@[simp] theorem advance_pc (s : State) : s.advance.pc = wrap32 (uint s.pc + 1) := rfl
@[simp] theorem advance_running (s : State) : s.advance.running = s.running := rfl
@[simp] theorem advance_executed (s : State) : s.advance.executed = s.executed := rfl
@[simp] theorem advance_faulted (s : State) : s.advance.faulted = s.faulted := rfl
@[simp] theorem advance_faultKind (s : State) : s.advance.faultKind = s.faultKind := rfl
@[simp] theorem advance_faultIndex (s : State) : s.advance.faultIndex = s.faultIndex := rfl
@[simp] theorem advance_inbox (s : State) : s.advance.inbox = s.inbox := rfl
@[simp] theorem advance_outbox (s : State) : s.advance.outbox = s.outbox := rfl

@[simp] theorem respond_params (s : State) (c : ResponseCode) (d : ResponseData) : (State.respond c d s).params = s.params := rfl
@[simp] theorem respond_regs (s : State) (c : ResponseCode) (d : ResponseData) : (State.respond c d s).regs = s.regs := rfl
@[simp] theorem respond_masks (s : State) (c : ResponseCode) (d : ResponseData) : (State.respond c d s).masks = s.masks := rfl
@[simp] theorem respond_mem (s : State) (c : ResponseCode) (d : ResponseData) : (State.respond c d s).mem = s.mem := rfl
@[simp] theorem respond_prog (s : State) (c : ResponseCode) (d : ResponseData) : (State.respond c d s).prog = s.prog := rfl
@[simp] theorem respond_pc (s : State) (c : ResponseCode) (d : ResponseData) : (State.respond c d s).pc = s.pc := rfl
@[simp] theorem respond_running (s : State) (c : ResponseCode) (d : ResponseData) : (State.respond c d s).running = s.running := rfl
@[simp] theorem respond_executed (s : State) (c : ResponseCode) (d : ResponseData) : (State.respond c d s).executed = s.executed := rfl
@[simp] theorem respond_faulted (s : State) (c : ResponseCode) (d : ResponseData) : (State.respond c d s).faulted = s.faulted := rfl
@[simp] theorem respond_faultKind (s : State) (c : ResponseCode) (d : ResponseData) : (State.respond c d s).faultKind = s.faultKind := rfl
@[simp] theorem respond_faultIndex (s : State) (c : ResponseCode) (d : ResponseData) : (State.respond c d s).faultIndex = s.faultIndex := rfl
@[simp] theorem respond_inbox (s : State) (c : ResponseCode) (d : ResponseData) : (State.respond c d s).inbox = s.inbox := rfl
@[simp] theorem respond_outbox (s : State) (c : ResponseCode) (d : ResponseData) : (State.respond c d s).outbox = s.outbox ++ [{ code := c, data := d }] := rfl

@[simp] theorem takeFault_params (s : State) (f : FaultKind) : (takeFault f s).params = s.params := rfl
@[simp] theorem takeFault_regs (s : State) (f : FaultKind) : (takeFault f s).regs = s.regs := rfl
@[simp] theorem takeFault_masks (s : State) (f : FaultKind) : (takeFault f s).masks = s.masks := rfl
@[simp] theorem takeFault_mem (s : State) (f : FaultKind) : (takeFault f s).mem = s.mem := rfl
@[simp] theorem takeFault_prog (s : State) (f : FaultKind) : (takeFault f s).prog = s.prog := rfl
@[simp] theorem takeFault_pc (s : State) (f : FaultKind) : (takeFault f s).pc = s.pc := rfl
@[simp] theorem takeFault_running (s : State) (f : FaultKind) : (takeFault f s).running = false := rfl
@[simp] theorem takeFault_executed (s : State) (f : FaultKind) : (takeFault f s).executed = true := rfl
@[simp] theorem takeFault_faulted (s : State) (f : FaultKind) : (takeFault f s).faulted = true := rfl
@[simp] theorem takeFault_faultKind (s : State) (f : FaultKind) : (takeFault f s).faultKind = f.code := rfl
@[simp] theorem takeFault_faultIndex (s : State) (f : FaultKind) : (takeFault f s).faultIndex = s.pc := rfl
@[simp] theorem takeFault_inbox (s : State) (f : FaultKind) : (takeFault f s).inbox = s.inbox := rfl
@[simp] theorem takeFault_outbox (s : State) (f : FaultKind) : (takeFault f s).outbox = s.outbox ++ [{ code := f.response, data := .faultIndex s.pc }] := rfl

@[simp] theorem endRun_params (s : State) : (endRun s).params = s.params := rfl
@[simp] theorem endRun_regs (s : State) : (endRun s).regs = s.regs := rfl
@[simp] theorem endRun_masks (s : State) : (endRun s).masks = s.masks := rfl
@[simp] theorem endRun_mem (s : State) : (endRun s).mem = s.mem := rfl
@[simp] theorem endRun_prog (s : State) : (endRun s).prog = s.prog := rfl
@[simp] theorem endRun_pc (s : State) : (endRun s).pc = s.pc := rfl
@[simp] theorem endRun_running (s : State) : (endRun s).running = false := rfl
@[simp] theorem endRun_executed (s : State) : (endRun s).executed = true := rfl
@[simp] theorem endRun_faulted (s : State) : (endRun s).faulted = s.faulted := rfl
@[simp] theorem endRun_faultKind (s : State) : (endRun s).faultKind = s.faultKind := rfl
@[simp] theorem endRun_faultIndex (s : State) : (endRun s).faultIndex = s.faultIndex := rfl
@[simp] theorem endRun_inbox (s : State) : (endRun s).inbox = s.inbox := rfl
@[simp] theorem endRun_outbox (s : State) : (endRun s).outbox = s.outbox ++ [{ code := .ok, data := .none }] := rfl

end Sys2Proof.Machine
end

