-- ==== Sys2Proof/Laws/Lanes.lean ====
section
/-! SUPPORT. The register file's laws and what the lane loop can do, said once: every instruction's meaning is the lane
loop over its own lane operation, so every later proof cites these and never unfolds the loop. -/

namespace Sys2Proof.Machine

/-! ### The register file -/

/-- `N` registers of `L` lanes (R20). -/
structure State.Shaped (s : State) : Prop where
  count : s.regs.length = s.params.numRegs
  lanes : ∀ v ∈ s.regs, v.length = s.params.numLanes

theorem lane_of_regs_eq {s t : State} (h : s.regs = t.regs) (r i : Nat) : s.lane r i = t.lane r i := by
  simp [State.lane, h]

theorem maskBit_of_masks_eq {s t : State} (h : s.masks = t.masks) (r i : Nat) : s.maskBit r i = t.maskBit r i := by
  simp [State.maskBit, h]

@[simp] theorem maskBit_setLane (s : State) (d i : Nat) (v : Word) (r l : Nat) :
    (s.setLane d i v).maskBit r l = s.maskBit r l := rfl

@[simp] theorem maskBit_memWrite (s : State) (a v : Word) (r l : Nat) :
    (s.memWrite a v).maskBit r l = s.maskBit r l := rfl

@[simp] theorem lane_memWrite (s : State) (a v : Word) (r l : Nat) : (s.memWrite a v).lane r l = s.lane r l := rfl

/-- Writing a lane changes no other lane, whatever the shape of the register file. -/
theorem lane_setLane_other (s : State) {d i r l : Nat} (v : Word) (h : ¬(r = d ∧ l = i)) :
    (s.setLane d i v).lane r l = s.lane r l := by
  simp only [State.lane, State.setLane, List.getD_eq_getElem?_getD, List.getElem?_set]
  by_cases hr : d = r
  · subst hr
    have hl : ¬i = l := fun e => h ⟨rfl, e.symm⟩
    by_cases hd : d < s.regs.length
    · simp [hd, hl]
    · simp [hd]
  · simp [hr]

/-- Writing a lane that exists makes it read as written. -/
theorem lane_setLane_same {s : State} (hs : s.Shaped) {d i : Nat} (hd : d < s.params.numRegs)
    (hi : i < s.params.numLanes) (v : Word) : (s.setLane d i v).lane d i = v := by
  have hd' : d < s.regs.length := hs.count ▸ hd
  have hrow : i < (s.regs[d]).length := by rw [hs.lanes _ (List.getElem_mem hd')]; exact hi
  simp [State.lane, State.setLane, hd', hrow]

theorem Shaped.setLane {s : State} (hs : s.Shaped) (d i : Nat) (v : Word) : (s.setLane d i v).Shaped := by
  refine ⟨by simp [hs.count], fun w hw => ?_⟩
  by_cases hd : d < s.regs.length
  · rcases List.mem_or_eq_of_mem_set hw with hw | rfl
    · exact hs.lanes w hw
    · simp [List.getElem?_eq_getElem hd, hs.lanes _ (List.getElem_mem hd)]
  · rw [setLane_regs, List.set_eq_of_length_le (Nat.le_of_not_lt hd)] at hw
    exact hs.lanes w hw

/-- R43: what the address check tests. -/
theorem inRange_iff (s : State) (a : Word) : s.inRange a = true ↔ 0 ≤ sint a ∧ sint a < (s.params.memBytes : Int) := by
  simp [State.inRange]

/-! ### The loop itself -/

/-- The state a lane loop ends in. -/
def LoopEnd.state : LoopEnd → State
  | .done s => s
  | .raised _ s => s

theorem laneLoop_append (d : Nat) (op : Nat → State → Except FaultKind State) (xs ys : List Nat) (s : State) :
    laneLoop d op (xs ++ ys) s =
      match laneLoop d op xs s with
      | .done s' => laneLoop d op ys s'
      | .raised f s' => .raised f s' := by
  induction xs generalizing s with
  | nil => rfl
  | cons i xs ih =>
    simp only [List.cons_append, laneLoop]
    split
    · split <;> simp [ih]
    · exact ih s

theorem range_split {j n : Nat} (h : j < n) :
    ∃ rest, List.range n = List.range j ++ j :: rest ∧ ∀ i ∈ rest, i < n := by
  obtain ⟨k, rfl⟩ : ∃ k, n = (j + 1) + k := ⟨n - (j + 1), by omega⟩
  refine ⟨(List.range k).map (j + 1 + ·), ?_, ?_⟩
  · rw [List.range_add, List.range_succ]; simp
  · intro i hi
    obtain ⟨x, hx, rfl⟩ := List.mem_map.mp hi
    have := List.mem_range.mp hx
    omega

/-- R90: with no active lane the loop does nothing. -/
theorem laneLoop_inactive {d : Nat} (op : Nat → State → Except FaultKind State) {xs : List Nat} {s : State}
    (h : ∀ i ∈ xs, s.maskBit d i = false) : laneLoop d op xs s = .done s := by
  induction xs with
  | nil => rfl
  | cons i xs ih =>
    simp only [laneLoop, h i (by simp)]
    exact ih fun j hj => h j (by simp [hj])

/-- Whatever every lane operation does at each active lane, the whole loop does. The relation may look at the lane. -/
theorem laneLoop_keeps {d : Nat} {op : Nat → State → Except FaultKind State} (R : State → State → Prop)
    (refl : ∀ s, R s s) (trans : ∀ {s t u}, R s t → R t u → R s u)
    (h : ∀ i s t, s.maskBit d i = true → op i s = .ok t → R s t) (xs : List Nat) (s : State) :
    R s (laneLoop d op xs s).state := by
  induction xs generalizing s with
  | nil => exact refl s
  | cons i xs ih =>
    simp only [laneLoop]
    split
    · rename_i hm
      split
      · rename_i t ht
        exact trans (h i s t hm ht) (ih t)
      · exact refl s
    · exact ih s

/-- A loop that raises, raises what some lane operation raised. -/
theorem laneLoop_raised {d : Nat} {op : Nat → State → Except FaultKind State} (P : FaultKind → Prop)
    (h : ∀ i s f, op i s = .error f → P f) {xs : List Nat} {s t : State} {f : FaultKind}
    (hl : laneLoop d op xs s = .raised f t) : P f := by
  induction xs generalizing s with
  | nil => simp [laneLoop] at hl
  | cons i xs ih =>
    simp only [laneLoop] at hl
    split at hl
    · split at hl
      · exact ih hl
      · rename_i hop
        cases hl
        exact h _ _ _ hop
    · exact ih hl

/-! ### A loop that writes registers -/

/-- `t` is `s` after the lanes below `n` of register `d` that are active have been written with `value`. -/
structure WroteBelow (d n : Nat) (value : Nat → Word) (s t : State) : Prop where
  only : t = { s with regs := t.regs }
  shaped : t.Shaped
  written : ∀ l, l < n → s.maskBit d l = true → t.lane d l = value l
  others : ∀ r l, ¬(r = d ∧ l < n ∧ s.maskBit d l = true) → t.lane r l = s.lane r l

theorem WroteBelow.zero {d : Nat} {value : Nat → Word} {s : State} (hs : s.Shaped) : WroteBelow d 0 value s s :=
  ⟨rfl, hs, fun l hl => absurd hl (Nat.not_lt_zero l), fun _ _ _ => rfl⟩

theorem WroteBelow.masks {d n : Nat} {value : Nat → Word} {s t : State} (h : WroteBelow d n value s t) :
    t.masks = s.masks := by rw [h.only]

theorem WroteBelow.params {d n : Nat} {value : Nat → Word} {s t : State} (h : WroteBelow d n value s t) :
    t.params = s.params := by rw [h.only]

theorem WroteBelow.mem {d n : Nat} {value : Nat → Word} {s t : State} (h : WroteBelow d n value s t) :
    t.mem = s.mem := by rw [h.only]

/-- The lane about to be written still reads as it did at the start (R88). -/
theorem WroteBelow.fresh {d n : Nat} {value : Nat → Word} {s t : State} (h : WroteBelow d n value s t) (r : Nat) :
    t.lane r n = s.lane r n :=
  h.others r n fun e => Nat.lt_irrefl n e.2.1

theorem WroteBelow.skip {d n : Nat} {value : Nat → Word} {s t : State} (h : WroteBelow d n value s t)
    (hm : s.maskBit d n = false) : WroteBelow d (n + 1) value s t := by
  refine ⟨h.only, h.shaped, fun l hl ha => ?_, fun r l hn => h.others r l fun e => hn ⟨e.1, Nat.lt_succ_of_lt e.2.1, e.2.2⟩⟩
  rcases Nat.lt_succ_iff_lt_or_eq.mp hl with hl | rfl
  · exact h.written l hl ha
  · simp [hm] at ha

theorem WroteBelow.write {d n : Nat} {value : Nat → Word} {s t : State} (h : WroteBelow d n value s t)
    (hd : d < s.params.numRegs) (hn : n < s.params.numLanes) (hm : s.maskBit d n = true) :
    WroteBelow d (n + 1) value s (t.setLane d n (value n)) := by
  refine ⟨?_, Shaped.setLane h.shaped d n _, fun l hl ha => ?_, fun r l he => ?_⟩
  · rw [State.setLane, h.only]
  · rcases Nat.lt_succ_iff_lt_or_eq.mp hl with hl | rfl
    · rw [lane_setLane_other _ _ (fun e => Nat.ne_of_lt hl e.2)]
      exact h.written l hl ha
    · exact lane_setLane_same h.shaped (by rw [h.params]; exact hd) (by rw [h.params]; exact hn) _
  · have hne : ¬(r = d ∧ l = n) := by
      rintro ⟨rfl, rfl⟩
      exact he ⟨rfl, Nat.lt_succ_self _, hm⟩
    rw [lane_setLane_other _ _ hne]
    exact h.others r l fun e => he ⟨e.1, Nat.lt_succ_of_lt e.2.1, e.2.2⟩

/-- R82, R88: if every active lane below `n` writes its value, the loop over them completes with all written. -/
theorem laneLoop_writes {d : Nat} {op : Nat → State → Except FaultKind State} {value : Nat → Word} {s : State}
    (hs : s.Shaped) (hd : d < s.params.numRegs) (n : Nat) (hn : n ≤ s.params.numLanes)
    (hop : ∀ i, i < n → s.maskBit d i = true → ∀ t, WroteBelow d i value s t → op i t = .ok (t.setLane d i (value i))) :
    ∃ t, laneLoop d op (List.range n) s = .done t ∧ WroteBelow d n value s t := by
  induction n with
  | zero => exact ⟨s, rfl, WroteBelow.zero hs⟩
  | succ n ih =>
    obtain ⟨t, ht, hw⟩ := ih (by omega) fun i hi => hop i (by omega)
    rw [List.range_succ, laneLoop_append, ht]
    by_cases hm : s.maskBit d n = true
    · refine ⟨t.setLane d n (value n), ?_, hw.write hd (by omega) hm⟩
      simp only [laneLoop, maskBit_of_masks_eq hw.masks, hm, if_true, hop n (by omega) hm t hw]
    · simp only [Bool.not_eq_true] at hm
      refine ⟨t, ?_, hw.skip hm⟩
      simp [laneLoop, maskBit_of_masks_eq hw.masks, hm]

/-- R89: if lane `j` is the first active lane that raises, the loop raises there with the lanes below it written. -/
theorem laneLoop_raises {d : Nat} {op : Nat → State → Except FaultKind State} {value : Nat → Word} {s : State}
    {f : FaultKind} (hs : s.Shaped) (hd : d < s.params.numRegs) {j : Nat} (hj : j < s.params.numLanes)
    (hmj : s.maskBit d j = true)
    (hop : ∀ i, i < j → s.maskBit d i = true → ∀ t, WroteBelow d i value s t → op i t = .ok (t.setLane d i (value i)))
    (herr : ∀ t, WroteBelow d j value s t → op j t = .error f) :
    ∃ t, laneLoop d op (List.range s.params.numLanes) s = .raised f t ∧ WroteBelow d j value s t := by
  obtain ⟨t, ht, hw⟩ := laneLoop_writes hs hd j (Nat.le_of_lt hj) hop
  obtain ⟨rest, hr, -⟩ := range_split hj
  refine ⟨t, ?_, hw⟩
  rw [hr, laneLoop_append, ht]
  simp only [laneLoop, maskBit_of_masks_eq hw.masks, hmj, if_true, herr t hw]

/-! ### A loop that stores bytes -/

/-- `t` is `s` after the active lanes below `n` of register `d` have stored `value` at `addr`, in ascending order: a
byte some active lane names holds what the highest such lane stored (R52), every other byte is as before. -/
structure StoredBelow (d n : Nat) (addr : Nat → Nat) (value : Nat → Byte) (s t : State) : Prop where
  only : t = { s with mem := t.mem }
  canonical : Memory.wf t.mem = true
  stored : ∀ l, l < n → s.maskBit d l = true → (∀ k, l < k → k < n → s.maskBit d k = true → addr k ≠ addr l) →
    Memory.read t.mem (addr l) = value l
  others : ∀ a, (∀ l, l < n → s.maskBit d l = true → addr l ≠ a) → Memory.read t.mem a = Memory.read s.mem a

theorem StoredBelow.zero {d : Nat} {addr : Nat → Nat} {value : Nat → Byte} {s : State} (h : Memory.wf s.mem = true) :
    StoredBelow d 0 addr value s s :=
  ⟨rfl, h, fun l hl => absurd hl (Nat.not_lt_zero l), fun _ _ => rfl⟩

theorem StoredBelow.masks {d n : Nat} {addr : Nat → Nat} {value : Nat → Byte} {s t : State}
    (h : StoredBelow d n addr value s t) : t.masks = s.masks := by rw [h.only]

theorem StoredBelow.params {d n : Nat} {addr : Nat → Nat} {value : Nat → Byte} {s t : State}
    (h : StoredBelow d n addr value s t) : t.params = s.params := by rw [h.only]

theorem StoredBelow.regs {d n : Nat} {addr : Nat → Nat} {value : Nat → Byte} {s t : State}
    (h : StoredBelow d n addr value s t) : t.regs = s.regs := by rw [h.only]

theorem StoredBelow.skip {d n : Nat} {addr : Nat → Nat} {value : Nat → Byte} {s t : State}
    (h : StoredBelow d n addr value s t) (hm : s.maskBit d n = false) : StoredBelow d (n + 1) addr value s t := by
  refine ⟨h.only, h.canonical, fun l hl ha hk => ?_, fun a ha => h.others a fun l hl => ha l (by omega)⟩
  rcases Nat.lt_succ_iff_lt_or_eq.mp hl with hl | rfl
  · exact h.stored l hl ha fun k h1 h2 => hk k h1 (by omega)
  · simp [hm] at ha

theorem StoredBelow.store {d n : Nat} {addr : Nat → Nat} {value : Nat → Byte} {s t : State}
    (h : StoredBelow d n addr value s t) (hm : s.maskBit d n = true) :
    StoredBelow d (n + 1) addr value s { t with mem := Memory.write t.mem (addr n) (value n) } := by
  refine ⟨by rw [h.only], Memory.wf_write _ _ h.canonical, fun l hl ha hk => ?_, fun a ha => ?_⟩
  · rw [Memory.read_write _ _ h.canonical]
    rcases Nat.lt_succ_iff_lt_or_eq.mp hl with hl | rfl
    · rw [if_neg fun e => hk n hl (by omega) hm e.symm]
      exact h.stored l hl ha fun k h1 h2 => hk k h1 (by omega)
    · rw [if_pos rfl]
  · rw [Memory.read_write _ _ h.canonical, if_neg fun e => ha n (by omega) hm e.symm]
    exact h.others a fun l hl => ha l (by omega)

/-- R51, R52: if every active lane below `n` stores its byte, the loop over them completes with all stored. -/
theorem laneLoop_stores {d : Nat} {op : Nat → State → Except FaultKind State} {addr : Nat → Nat} {value : Nat → Byte}
    {s : State} (hs : Memory.wf s.mem = true) (n : Nat)
    (hop : ∀ i, i < n → s.maskBit d i = true → ∀ t, StoredBelow d i addr value s t →
      op i t = .ok { t with mem := Memory.write t.mem (addr i) (value i) }) :
    ∃ t, laneLoop d op (List.range n) s = .done t ∧ StoredBelow d n addr value s t := by
  induction n with
  | zero => exact ⟨s, rfl, StoredBelow.zero hs⟩
  | succ n ih =>
    obtain ⟨t, ht, hw⟩ := ih fun i hi => hop i (by omega)
    rw [List.range_succ, laneLoop_append, ht]
    by_cases hm : s.maskBit d n = true
    · refine ⟨_, ?_, hw.store hm⟩
      simp only [laneLoop, maskBit_of_masks_eq hw.masks, hm, if_true, hop n (by omega) hm t hw]
    · simp only [Bool.not_eq_true] at hm
      refine ⟨t, ?_, hw.skip hm⟩
      simp [laneLoop, maskBit_of_masks_eq hw.masks, hm]

/-- R89: if lane `j` is the first active lane that raises, the loop raises there with the bytes below it stored. -/
theorem laneLoop_store_raises {d : Nat} {op : Nat → State → Except FaultKind State} {addr : Nat → Nat}
    {value : Nat → Byte} {s : State} {f : FaultKind} (hs : Memory.wf s.mem = true) {j : Nat}
    (hj : j < s.params.numLanes) (hmj : s.maskBit d j = true)
    (hop : ∀ i, i < j → s.maskBit d i = true → ∀ t, StoredBelow d i addr value s t →
      op i t = .ok { t with mem := Memory.write t.mem (addr i) (value i) })
    (herr : ∀ t, StoredBelow d j addr value s t → op j t = .error f) :
    ∃ t, laneLoop d op (List.range s.params.numLanes) s = .raised f t ∧ StoredBelow d j addr value s t := by
  obtain ⟨t, ht, hw⟩ := laneLoop_stores hs j hop
  obtain ⟨rest, hr, -⟩ := range_split hj
  refine ⟨t, ?_, hw⟩
  rw [hr, laneLoop_append, ht]
  simp only [laneLoop, maskBit_of_masks_eq hw.masks, hmj, if_true, herr t hw]

end Sys2Proof.Machine
end

