-- ==== Sys2Proof/Laws/Exec.lean ====
section
/-! SUPPORT. What an instruction can do, said once for the shape all sixteen share: validation, lane loop, and then the
next instruction or fault entry (spec/40_execution.md R82, R84, R89). -/

namespace Sys2Proof.Machine

/-- The lane operation of an instruction (R82). -/
def laneOp : Instr → Nat → State → Except FaultKind State
  | .mov _ d a _ => movLane (uint d) a
  | .add _ d a b => binaryLane addWord (uint d) a b
  | .sub _ d a b => binaryLane subWord (uint d) a b
  | .mul _ d a b => binaryLane mulWord (uint d) a b
  | .div _ d a b => divLane (uint d) a b
  | .load _ d a _ => loadLane (uint d) a
  | .store _ d a _ => storeLane (uint d) a
  | .and _ _ _ _ | .or _ _ _ _ | .xor _ _ _ _ | .not _ _ _ _ | .shl _ _ _ _ | .shr _ _ _ _
  | .opc13 _ _ _ _ | .opc14 _ _ _ _ | .opc15 _ _ _ _ => unsupportedLane

/-- Every instruction is the shared operation over its own lane operation. -/
theorem exec_eq_execOne (i : Instr) (s : State) : exec i s = execOne i.dst i.src1 i.src2 (laneOp i) s := by
  cases i <;> rfl

theorem src_invalid_eq (n : Nat) (x : Src) : Src.invalid n x = !x.validFor n := by
  cases x <;> simp [Src.invalid, Src.validFor, ← decide_not]

/-- R84: validation passes exactly when every register-form field names a register. -/
theorem validate_eq_none (n : Nat) (i : Instr) : validate n i.dst i.src1 i.src2 = none ↔ i.validFor n = true := by
  simp only [validate, src_invalid_eq, Instr.validFor, Bool.and_eq_true, decide_eq_true_eq]
  by_cases h : n ≤ uint i.dst
  · simp [h]
  · cases i.src1.validFor n <;> cases i.src2.validFor n <;> (simp [h]; try omega)

/-- R84: a validation that fails raises InvalidRegister. -/
theorem validate_eq_some (n : Nat) (i : Instr) (h : i.validFor n = false) :
    validate n i.dst i.src1 i.src2 = some .invalidRegister := by
  have hn : validate n i.dst i.src1 i.src2 ≠ none := by
    rw [Ne, validate_eq_none]; simp [h]
  unfold validate at hn ⊢
  split
  · rfl
  · split
    · rfl
    · split
      · rfl
      · simp_all

theorem exec_of_invalid {i : Instr} {s : State} (h : i.validFor s.params.numRegs = false) :
    exec i s = .next (takeFault .invalidRegister s) := by
  rw [exec_eq_execOne, execOne, validate_eq_some _ i h]

theorem exec_of_valid {i : Instr} {s : State} (h : i.validFor s.params.numRegs = true) :
    exec i s = .next (finish (laneLoop (uint i.dst) (laneOp i) (List.range s.params.numLanes) s)) := by
  rw [exec_eq_execOne, execOne, (validate_eq_none _ i).mpr h]

theorem uint_dst_lt {i : Instr} {n : Nat} (h : i.validFor n = true) : uint i.dst < n := by
  simp only [Instr.validFor, Bool.and_eq_true, decide_eq_true_eq] at h
  exact h.1.1

/-- An instruction always answers a next state: the fault it may raise is taken (R182). -/
theorem exec_answers_next (i : Instr) (s : State) : ∃ t, exec i s = .next t := by
  by_cases h : i.validFor s.params.numRegs = true
  · exact ⟨_, exec_of_valid h⟩
  · exact ⟨_, exec_of_invalid (by simpa using h)⟩

/-- The two ways an instruction ends, and what its lane loop left: either its loop ran to the end and the cursor moves
on, or a fault was raised and entered. -/
theorem exec_cases {i : Instr} {s t : State} (h : exec i s = .next t) :
    (i.validFor s.params.numRegs = false ∧ t = takeFault .invalidRegister s) ∨
    (i.validFor s.params.numRegs = true ∧ ∃ u, t = State.advance u ∧
      laneLoop (uint i.dst) (laneOp i) (List.range s.params.numLanes) s = .done u) ∨
    (i.validFor s.params.numRegs = true ∧ ∃ f u, t = takeFault f u ∧
      laneLoop (uint i.dst) (laneOp i) (List.range s.params.numLanes) s = .raised f u) := by
  cases hv : i.validFor s.params.numRegs with
  | false =>
    rw [exec_of_invalid hv] at h
    exact .inl ⟨rfl, by cases h; rfl⟩
  | true =>
    rw [exec_of_valid hv] at h
    cases hl : laneLoop (uint i.dst) (laneOp i) (List.range s.params.numLanes) s with
    | done u => rw [hl] at h; cases h; exact .inr (.inl ⟨rfl, u, rfl, rfl⟩)
    | raised f u => rw [hl] at h; cases h; exact .inr (.inr ⟨rfl, f, u, rfl, rfl⟩)

/-- What one lane operation can do: write lane `l` of the destination, or store one in-range byte and only for STORE. -/
theorem laneOp_cases {i : Instr} {l : Nat} {s t : State} (h : laneOp i l s = .ok t) :
    (∃ v, t = s.setLane (uint i.dst) l v ∧ ∀ ty d a b, i ≠ .store ty d a b) ∨
    (∃ ty d a b, i = .store ty d a b ∧ s.inRange (operand a l s) = true ∧
      t = s.memWrite (operand a l s) (s.lane (uint d) l)) := by
  cases i with
  | mov ty d a b => left; simp only [laneOp, movLane, Except.ok.injEq] at h; exact ⟨_, h.symm, by simp⟩
  | add ty d a b => left; simp only [laneOp, binaryLane, Except.ok.injEq] at h; exact ⟨_, h.symm, by simp⟩
  | sub ty d a b => left; simp only [laneOp, binaryLane, Except.ok.injEq] at h; exact ⟨_, h.symm, by simp⟩
  | mul ty d a b => left; simp only [laneOp, binaryLane, Except.ok.injEq] at h; exact ⟨_, h.symm, by simp⟩
  | div ty d a b =>
    left
    simp only [laneOp, divLane] at h
    split at h
    · simp at h
    · simp only [Except.ok.injEq] at h; exact ⟨_, h.symm, by simp⟩
  | load ty d a b =>
    left
    simp only [laneOp, loadLane] at h
    split at h
    · simp only [Except.ok.injEq] at h; exact ⟨_, h.symm, by simp⟩
    · simp at h
  | store ty d a b =>
    right
    simp only [laneOp, storeLane] at h
    split at h
    · rename_i hr
      simp only [Except.ok.injEq] at h
      exact ⟨ty, d, a, b, rfl, hr, h.symm⟩
    · simp at h
  | _ => simp [laneOp, unsupportedLane] at h

/-- R187: which fault kind each opcode can raise in its lane loop. -/
theorem laneOp_error {i : Instr} {l : Nat} {s : State} {f : FaultKind} (h : laneOp i l s = .error f) :
    (f = .divideByZero ∧ opcodeOf i = 4) ∨
    (f = .outOfBoundsAccess ∧ (opcodeOf i = 5 ∨ opcodeOf i = 6)) ∨
    (f = .unsupportedInstruction ∧ 7 ≤ (opcodeOf i).toNat) := by
  cases i with
  | mov ty d a b => simp [laneOp, movLane] at h
  | add ty d a b => simp [laneOp, binaryLane] at h
  | sub ty d a b => simp [laneOp, binaryLane] at h
  | mul ty d a b => simp [laneOp, binaryLane] at h
  | div ty d a b =>
    simp only [laneOp, divLane] at h
    split at h
    · cases h; exact .inl ⟨rfl, rfl⟩
    · simp at h
  | load ty d a b =>
    simp only [laneOp, loadLane] at h
    split at h
    · simp at h
    · cases h; exact .inr (.inl ⟨rfl, .inl rfl⟩)
  | store ty d a b =>
    simp only [laneOp, storeLane] at h
    split at h
    · simp at h
    · cases h; exact .inr (.inl ⟨rfl, .inr rfl⟩)
  | _ =>
    simp only [laneOp, unsupportedLane, Except.error.injEq] at h
    exact .inr (.inr ⟨h.symm, by simp [opcodeOf]⟩)

/-! ### The frame of the lane loop -/

/-- What a lane loop leaves alone: all of the state but registers and memory. -/
structure SameControl (s t : State) : Prop where
  eq : t = { s with regs := t.regs, mem := t.mem }

theorem SameControl.refl (s : State) : SameControl s s := ⟨rfl⟩

theorem SameControl.trans {s t u : State} (h : SameControl s t) (k : SameControl t u) : SameControl s u :=
  ⟨by rw [k.eq, h.eq]⟩

theorem laneOp_sameControl {i : Instr} {l : Nat} {s t : State} (h : laneOp i l s = .ok t) : SameControl s t := by
  rcases laneOp_cases h with ⟨v, rfl, -⟩ | ⟨ty, d, a, b, -, -, rfl⟩
  · exact ⟨rfl⟩
  · exact ⟨rfl⟩

theorem loop_sameControl (i : Instr) (xs : List Nat) (s : State) :
    SameControl s (laneLoop (uint i.dst) (laneOp i) xs s).state :=
  laneLoop_keeps SameControl SameControl.refl SameControl.trans (fun _ _ _ _ h => laneOp_sameControl h) xs s

/-- The state an instruction's lane loop ends in keeps a property that every register write and every in-range store
keeps. -/
theorem loop_keeps (i : Instr) (P : State → Prop) (hw : ∀ s l v, P s → P (s.setLane (uint i.dst) l v))
    (hs : ∀ s a v, s.inRange a = true → P s → P (s.memWrite a v)) (xs : List Nat) {s : State} (h : P s) :
    P (laneLoop (uint i.dst) (laneOp i) xs s).state := by
  refine laneLoop_keeps (fun s t => P s → P t) (fun _ => id) (fun f g => g ∘ f) ?_ xs s h
  intro l s t _ ht hp
  rcases laneOp_cases ht with ⟨v, rfl, -⟩ | ⟨ty, d, a, b, -, hr, rfl⟩
  · exact hw s l v hp
  · exact hs s _ _ hr hp

/-! ### Outcomes of the writing and the storing instructions -/

theorem advance_pc_eq (v : Word) : wrap32 ((uint v : Int) + 1) = v + 1#32 := by
  apply BitVec.eq_of_toNat_eq
  simp [wrap32, uint, BitVec.toNat_ofInt, BitVec.toNat_add]
  omega

theorem WroteBelow.lanesWritten {d : Word} {n : Nat} {value : Nat → Word} {s t : State}
    (hn : n ≤ s.params.numLanes) (h : WroteBelow (uint d) n value s t) : s.LanesWritten d n value t :=
  ⟨fun l hl ha => h.written l hl ha.2,
    fun r l he => h.others r l fun e => he ⟨e.1, e.2.1, Nat.lt_of_lt_of_le e.2.1 hn, e.2.2⟩⟩

theorem StoredBelow.bytesStored {d : Word} {n : Nat} {addr : Nat → Nat} {value : Nat → Byte} {s t : State}
    (hn : n ≤ s.params.numLanes) (h : StoredBelow (uint d) n addr value s t) : s.BytesStored d n addr value t :=
  ⟨fun l hl ha hk => h.stored l hl ha.2 fun k h1 h2 h3 => hk k h1 h2 ⟨Nat.lt_of_lt_of_le h2 hn, h3⟩,
    fun a ha => h.others a fun l hl hm => ha l hl ⟨Nat.lt_of_lt_of_le hl hn, hm⟩⟩

theorem takeFault_eq_afterFault (f : FaultKind) (s : State) : takeFault f s = s.afterFault f.code f.response := rfl

/-- The outcome of an instruction whose active lanes all write. -/
theorem exec_writes {i : Instr} {s : State} {value : Nat → Word} (hs : s.Shaped)
    (hv : i.validFor s.params.numRegs = true)
    (hop : ∀ l, l < s.params.numLanes → s.maskBit (uint i.dst) l = true → ∀ t, WroteBelow (uint i.dst) l value s t →
      laneOp i l t = .ok (t.setLane (uint i.dst) l (value l))) : WritesLanes i s value := by
  obtain ⟨t, ht, hw⟩ := laneLoop_writes hs (uint_dst_lt hv) s.params.numLanes (Nat.le_refl _) hop
  have hl := hw.lanesWritten (Nat.le_refl _)
  refine ⟨t.advance, by rw [exec_of_valid hv, ht]; rfl, ?_, hl⟩
  rw [State.advance, advance_pc_eq, hw.only]

/-- The outcome of an instruction that raises at lane `j` after the active lanes below it have written. -/
theorem exec_faults_after_writes {i : Instr} {s : State} {value : Nat → Word} {j : Nat} {f : FaultKind}
    (hs : s.Shaped) (hv : i.validFor s.params.numRegs = true) (hj : s.active i.dst j)
    (hop : ∀ l, l < j → s.maskBit (uint i.dst) l = true → ∀ t, WroteBelow (uint i.dst) l value s t →
      laneOp i l t = .ok (t.setLane (uint i.dst) l (value l)))
    (herr : ∀ t, WroteBelow (uint i.dst) j value s t → laneOp i j t = .error f) :
    FaultsAfterWrites i s j value f.code f.response := by
  obtain ⟨t, ht, hw⟩ := laneLoop_raises hs (uint_dst_lt hv) hj.1 hj.2 hop herr
  exact ⟨t, hw.only, hw.lanesWritten (Nat.le_of_lt hj.1), by rw [exec_of_valid hv, ht]; rfl⟩

/-- The outcome of an instruction whose active lanes all store. -/
theorem exec_stores {i : Instr} {s : State} {addr : Nat → Nat} {value : Nat → Byte} (hs : Memory.wf s.mem = true)
    (hv : i.validFor s.params.numRegs = true)
    (hop : ∀ l, l < s.params.numLanes → s.maskBit (uint i.dst) l = true → ∀ t,
      StoredBelow (uint i.dst) l addr value s t →
      laneOp i l t = .ok { t with mem := Memory.write t.mem (addr l) (value l) }) : StoresBytes i s addr value := by
  obtain ⟨t, ht, hw⟩ := laneLoop_stores hs s.params.numLanes hop
  have hl := hw.bytesStored (Nat.le_refl _)
  refine ⟨t.advance, by rw [exec_of_valid hv, ht]; rfl, ?_, hl⟩
  rw [State.advance, advance_pc_eq, hw.only]

/-- The outcome of an instruction that raises at lane `j` after the active lanes below it have stored. -/
theorem exec_faults_after_stores {i : Instr} {s : State} {addr : Nat → Nat} {value : Nat → Byte} {j : Nat}
    {f : FaultKind} (hs : Memory.wf s.mem = true) (hv : i.validFor s.params.numRegs = true) (hj : s.active i.dst j)
    (hop : ∀ l, l < j → s.maskBit (uint i.dst) l = true → ∀ t, StoredBelow (uint i.dst) l addr value s t →
      laneOp i l t = .ok { t with mem := Memory.write t.mem (addr l) (value l) })
    (herr : ∀ t, StoredBelow (uint i.dst) j addr value s t → laneOp i j t = .error f) :
    FaultsAfterStores i s j addr value f.code f.response := by
  obtain ⟨t, ht, hw⟩ := laneLoop_store_raises hs hj.1 hj.2 hop herr
  exact ⟨t, hw.only, hw.bytesStored (Nat.le_of_lt hj.1), by rw [exec_of_valid hv, ht]; rfl⟩

/-- The first of the listed lanes that is active, if any. -/
theorem first_active (s : State) (d : Word) (n : Nat) :
    (∀ l, l < n → s.maskBit (uint d) l = false) ∨
    ∃ j, j < n ∧ s.maskBit (uint d) j = true ∧ ∀ l, l < j → s.maskBit (uint d) l = false := by
  induction n with
  | zero => exact .inl fun l hl => absurd hl (Nat.not_lt_zero l)
  | succ n ih =>
    rcases ih with h | ⟨j, hj, hm, hb⟩
    · cases hn : s.maskBit (uint d) n with
      | false =>
        refine .inl fun l hl => ?_
        rcases Nat.lt_succ_iff_lt_or_eq.mp hl with hl | rfl
        · exact h l hl
        · exact hn
      | true => exact .inr ⟨n, Nat.lt_succ_self n, hn, h⟩
    · exact .inr ⟨j, Nat.lt_succ_of_lt hj, hm, hb⟩

theorem operand_fresh {d n : Nat} {value : Nat → Word} {s t : State} (h : WroteBelow d n value s t) (x : Src) :
    operand x n t = operand x n s := by
  cases x with
  | imm v => rfl
  | reg f => exact h.fresh _

theorem operand_stored {d n : Nat} {addr : Nat → Nat} {value : Nat → Byte} {s t : State}
    (h : StoredBelow d n addr value s t) (x : Src) (l : Nat) : operand x l t = operand x l s := by
  cases x with
  | imm v => rfl
  | reg f => exact lane_of_regs_eq h.regs _ _

end Sys2Proof.Machine
end

