-- ==== Sys2Proof/Laws/Step.lean ====
section
/-! SUPPORT. What a step can do, said once, and what an instruction leaves alone when it answers a next state. Every
invariant of the machine is a case analysis over these. -/

namespace Sys2Proof.Machine

/-- A step that answers a next state ended a run, ran one decoded instruction, or served the host. -/
theorem step_cases {s t : State} (h : step s = .next t) :
    (s.running = true ∧ fetch s = none ∧ t = endRun s) ∨
    (s.running = true ∧ ∃ w i, fetch s = some w ∧ decode w = .ok i ∧ exec i s = .next t) ∨
    (s.running = false ∧ t = serveHost s) := by
  unfold step at h
  split at h
  · rename_i hr
    split at h
    · rename_i hf
      cases h
      exact .inl ⟨hr, hf, rfl⟩
    · rename_i w hf
      split at h
      · rename_i i hd
        exact .inr (.inl ⟨hr, w, i, hf, hd, h⟩)
      · cases h
  · rename_i hr
    cases h
    exact .inr (.inr ⟨by simpa using hr, rfl⟩)

/-- The parts of the state that no instruction changes, faulting or not. -/
structure SameSetting (s t : State) : Prop where
  params : t.params = s.params
  masks : t.masks = s.masks
  prog : t.prog = s.prog
  inbox : t.inbox = s.inbox

theorem SameControl.setting {s t : State} (h : SameControl s t) : SameSetting s t := by
  rw [h.eq]; exact ⟨rfl, rfl, rfl, rfl⟩

theorem exec_sameSetting {i : Instr} {s t : State} (h : exec i s = .next t) : SameSetting s t := by
  have hc := loop_sameControl i (List.range s.params.numLanes) s
  rcases exec_cases h with ⟨-, rfl⟩ | ⟨-, u, rfl, hl⟩ | ⟨-, f, u, rfl, hl⟩
  · exact ⟨rfl, rfl, rfl, rfl⟩
  · rw [hl] at hc
    have := hc.setting
    exact ⟨this.params, this.masks, this.prog, this.inbox⟩
  · rw [hl] at hc
    have := hc.setting
    exact ⟨this.params, this.masks, this.prog, this.inbox⟩

/-- A property of registers, memory and what no instruction changes, kept by every register write and every in-range
store, is kept by every instruction. -/
theorem exec_keeps {i : Instr} {s t : State} (P : State → Prop) (hw : ∀ s l v, P s → P (s.setLane (uint i.dst) l v))
    (hs : ∀ s a v, s.inRange a = true → P s → P (s.memWrite a v)) (ha : ∀ s, P s → P s.advance)
    (hf : ∀ f s, P s → P (takeFault f s)) (h : exec i s = .next t) (hp : P s) : P t := by
  have hk := loop_keeps i P hw hs (List.range s.params.numLanes) hp
  rcases exec_cases h with ⟨-, rfl⟩ | ⟨-, u, rfl, hl⟩ | ⟨-, f, u, rfl, hl⟩
  · exact hf _ _ hp
  · rw [hl] at hk; exact ha _ hk
  · rw [hl] at hk; exact hf _ _ hk

/-- The control fields after an instruction: moved on by one, or the fault record written from the cursor (R182). -/
theorem exec_control {i : Instr} {s t : State} (h : exec i s = .next t) :
    (t = { s with regs := t.regs, mem := t.mem, pc := s.pc + 1#32 }) ∨
    (∃ f : FaultKind, t = { s.afterFault f.code f.response with regs := t.regs, mem := t.mem }) := by
  have hc := loop_sameControl i (List.range s.params.numLanes) s
  rcases exec_cases h with ⟨-, rfl⟩ | ⟨-, u, rfl, hl⟩ | ⟨-, f, u, rfl, hl⟩
  · exact .inr ⟨.invalidRegister, rfl⟩
  · rw [hl] at hc
    refine .inl ?_
    have := hc.eq
    simp only [LoopEnd.state] at this
    rw [State.advance, advance_pc_eq, this]
  · rw [hl] at hc
    refine .inr ⟨f, ?_⟩
    have := hc.eq
    simp only [LoopEnd.state] at this
    rw [takeFault, this]
    rfl

theorem fetch_eq_none {s : State} : fetch s = none ↔ s.plen ≤ uint s.pc := by
  simp [fetch, State.plen]

theorem fetch_mem {s : State} {w : IWord} (h : fetch s = some w) : w ∈ s.prog :=
  List.mem_of_getElem? h

theorem fetch_lt {s : State} {w : IWord} (h : fetch s = some w) : uint s.pc < s.plen := by
  rw [← Nat.not_le, ← fetch_eq_none, h]; simp

theorem FaultKind.code_range (f : FaultKind) : 1 ≤ f.code.toNat ∧ f.code.toNat ≤ 4 := by
  cases f <;> decide

/-! ### Runs of several steps -/

theorem reaches_zero {s t : State} : Reaches 0 s t ↔ t = s := by
  constructor
  · intro h; cases h; rfl
  · rintro rfl; rfl

theorem reaches_succ {n : Nat} {s t : State} : Reaches (n + 1) s t ↔ ∃ u, step s = .next u ∧ Reaches n u t := by
  have h : Sys2Proof.core.step s = step s := rfl
  simp only [Reaches, Host.Core.run]
  rw [h]
  cases step s <;> simp

theorem reaches_add {m n : Nat} {s t u : State} (h : Reaches m s t) (k : Reaches n t u) : Reaches (m + n) s u := by
  induction m generalizing s with
  | zero => rw [reaches_zero] at h; subst h; rwa [Nat.zero_add]
  | succ m ih =>
    obtain ⟨v, hv, h⟩ := reaches_succ.mp h
    rw [Nat.succ_add]
    exact reaches_succ.mpr ⟨v, hv, ih h⟩

end Sys2Proof.Machine
end

