-- ==== Sys2Proof/Laws/Invariant.lean ====
section
/-! SUPPORT. The parts of the invariant and what keeps each: no instruction breaks the shape of the register file or the
form of the memory, and an update of the other fields keeps the rest. -/

namespace Sys2Proof.Machine

theorem State.Inv.shaped {s : State} (h : s.Inv) : s.Shaped := ⟨h.regsCount, h.lanesCount⟩

/-- While a run is under way no fault is recorded (R182 ends the run). -/
theorem State.Inv.not_faulted {s : State} (h : s.Inv) (hr : s.running = true) : s.faulted = false := by
  cases hf : s.faulted with
  | false => rfl
  | true => have := (h.record.ended hf).2; rw [hr] at this; cases this

/-- The bounds the parameters give (R7). -/
theorem State.Inv.bounds {s : State} (h : s.Inv) :
    1 ≤ s.params.numRegs ∧ s.params.numRegs ≤ 2 ^ 31 ∧ 1 ≤ s.params.numLanes ∧ 1 ≤ s.params.memBytes ∧
      s.params.memBytes ≤ 2 ^ 31 ∧ 1 ≤ s.params.progCap ∧ s.params.progCap ≤ 2 ^ 32 - 1 := by
  have := h.params
  simp only [Params.legal, Bool.and_eq_true, decide_eq_true_eq] at this
  omega

/-- An update that touches only the control fields keeps the invariant if the fault record and the cursor are right. -/
theorem State.Inv.ofSameData {s t : State} (h : s.Inv) (hp : t.params = s.params) (hr : t.regs = s.regs)
    (hk : t.masks = s.masks) (hm : t.mem = s.mem) (hg : t.prog = s.prog) (hrec : t.RecordOk)
    (hc : t.running = true → uint t.pc ≤ t.plen) : t.Inv := by
  refine ⟨hp ▸ h.params, ?_, ?_, ?_, ?_, hm ▸ h.memCanonical, ?_, ?_, hg ▸ h.progWellFormed, hrec, hc⟩
  · rw [hr, hp]; exact h.regsCount
  · rw [hr, hp]; exact h.lanesCount
  · rw [hk, hp]; exact h.masksCount
  · rw [hk, hp]; exact h.bitsCount
  · rw [hm, hp]; exact h.memInside
  · rw [State.plen, hg, hp]; exact h.progFits

/-- Registers in shape, memory canonical and inside `[0, M)`. -/
structure State.DataOk (s : State) : Prop where
  shaped : s.Shaped
  canonical : Memory.wf s.mem = true
  inside : ∀ c ∈ s.mem, c.1 < s.params.memBytes

theorem State.Inv.dataOk {s : State} (h : s.Inv) : s.DataOk := ⟨h.shaped, h.memCanonical, h.memInside⟩

/-- Every instruction keeps registers in shape and the memory canonical and inside `[0, M)`. -/
theorem exec_keeps_dataOk {i : Instr} {s t : State} (h : exec i s = .next t) (hd : s.DataOk) : t.DataOk := by
  refine exec_keeps State.DataOk ?_ ?_ ?_ ?_ h hd
  · exact fun s l v hp => ⟨Shaped.setLane hp.shaped _ _ _, hp.canonical, hp.inside⟩
  · intro s a v hr hp
    refine ⟨⟨hp.shaped.count, hp.shaped.lanes⟩, Memory.wf_write _ _ hp.canonical, fun c hc => ?_⟩
    rcases Memory.mem_write hc with hc | rfl
    · exact hp.inside c hc
    · rw [inRange_iff] at hr
      simp only [memWrite_params]
      omega
  · exact fun s hp => ⟨⟨hp.shaped.count, hp.shaped.lanes⟩, hp.canonical, hp.inside⟩
  · exact fun f s hp => ⟨⟨hp.shaped.count, hp.shaped.lanes⟩, hp.canonical, hp.inside⟩

end Sys2Proof.Machine
end

