-- ==== Sys2Proof/Laws/PerInstr.lean ====
section
/-! SUPPORT. Statements about every instruction as syntax, one lemma per constructor. EncodeWellFormed: the word of an
instruction passes the well-formedness test of spec/30_encoding.md R67. -/

/-- The word of the instruction is well-formed (R67). -/
def Sys2Proof.Laws.EncodeWellFormed.Statement (i : Sys2Proof.Instr) : Prop :=
  Sys2Proof.wordWellFormed (Sys2Proof.encode i) = true

theorem Sys2Proof.Laws.EncodeWellFormed.all (i : Sys2Proof.Instr) :
    Sys2Proof.Laws.EncodeWellFormed.Statement i := by
  refine (Sys2Proof.wordWellFormed_iff _).mpr ?_
  rw [Sys2Proof.encode, Sys2Proof.fieldsOf_wordOf]
  refine ⟨rfl, ?_⟩
  show (Sys2Proof.dtypeCode i.dtype).toNat ≤ 7
  cases i.dtype <;> decide

theorem Sys2Proof.Laws.EncodeWellFormed.mov (t : Sys2Proof.DType) (d : Sys2Proof.Word) (a b : Sys2Proof.Src) :
    Sys2Proof.Laws.EncodeWellFormed.Statement (.mov t d a b) := Sys2Proof.Laws.EncodeWellFormed.all _

theorem Sys2Proof.Laws.EncodeWellFormed.add (t : Sys2Proof.DType) (d : Sys2Proof.Word) (a b : Sys2Proof.Src) :
    Sys2Proof.Laws.EncodeWellFormed.Statement (.add t d a b) := Sys2Proof.Laws.EncodeWellFormed.all _

theorem Sys2Proof.Laws.EncodeWellFormed.sub (t : Sys2Proof.DType) (d : Sys2Proof.Word) (a b : Sys2Proof.Src) :
    Sys2Proof.Laws.EncodeWellFormed.Statement (.sub t d a b) := Sys2Proof.Laws.EncodeWellFormed.all _

theorem Sys2Proof.Laws.EncodeWellFormed.mul (t : Sys2Proof.DType) (d : Sys2Proof.Word) (a b : Sys2Proof.Src) :
    Sys2Proof.Laws.EncodeWellFormed.Statement (.mul t d a b) := Sys2Proof.Laws.EncodeWellFormed.all _

theorem Sys2Proof.Laws.EncodeWellFormed.div (t : Sys2Proof.DType) (d : Sys2Proof.Word) (a b : Sys2Proof.Src) :
    Sys2Proof.Laws.EncodeWellFormed.Statement (.div t d a b) := Sys2Proof.Laws.EncodeWellFormed.all _

theorem Sys2Proof.Laws.EncodeWellFormed.load (t : Sys2Proof.DType) (d : Sys2Proof.Word) (a b : Sys2Proof.Src) :
    Sys2Proof.Laws.EncodeWellFormed.Statement (.load t d a b) := Sys2Proof.Laws.EncodeWellFormed.all _

theorem Sys2Proof.Laws.EncodeWellFormed.store (t : Sys2Proof.DType) (d : Sys2Proof.Word) (a b : Sys2Proof.Src) :
    Sys2Proof.Laws.EncodeWellFormed.Statement (.store t d a b) := Sys2Proof.Laws.EncodeWellFormed.all _

theorem Sys2Proof.Laws.EncodeWellFormed.and (t : Sys2Proof.DType) (d : Sys2Proof.Word) (a b : Sys2Proof.Src) :
    Sys2Proof.Laws.EncodeWellFormed.Statement (.and t d a b) := Sys2Proof.Laws.EncodeWellFormed.all _

theorem Sys2Proof.Laws.EncodeWellFormed.or (t : Sys2Proof.DType) (d : Sys2Proof.Word) (a b : Sys2Proof.Src) :
    Sys2Proof.Laws.EncodeWellFormed.Statement (.or t d a b) := Sys2Proof.Laws.EncodeWellFormed.all _

theorem Sys2Proof.Laws.EncodeWellFormed.xor (t : Sys2Proof.DType) (d : Sys2Proof.Word) (a b : Sys2Proof.Src) :
    Sys2Proof.Laws.EncodeWellFormed.Statement (.xor t d a b) := Sys2Proof.Laws.EncodeWellFormed.all _

theorem Sys2Proof.Laws.EncodeWellFormed.not (t : Sys2Proof.DType) (d : Sys2Proof.Word) (a b : Sys2Proof.Src) :
    Sys2Proof.Laws.EncodeWellFormed.Statement (.not t d a b) := Sys2Proof.Laws.EncodeWellFormed.all _

theorem Sys2Proof.Laws.EncodeWellFormed.shl (t : Sys2Proof.DType) (d : Sys2Proof.Word) (a b : Sys2Proof.Src) :
    Sys2Proof.Laws.EncodeWellFormed.Statement (.shl t d a b) := Sys2Proof.Laws.EncodeWellFormed.all _

theorem Sys2Proof.Laws.EncodeWellFormed.shr (t : Sys2Proof.DType) (d : Sys2Proof.Word) (a b : Sys2Proof.Src) :
    Sys2Proof.Laws.EncodeWellFormed.Statement (.shr t d a b) := Sys2Proof.Laws.EncodeWellFormed.all _

theorem Sys2Proof.Laws.EncodeWellFormed.opc13 (t : Sys2Proof.DType) (d : Sys2Proof.Word) (a b : Sys2Proof.Src) :
    Sys2Proof.Laws.EncodeWellFormed.Statement (.opc13 t d a b) := Sys2Proof.Laws.EncodeWellFormed.all _

theorem Sys2Proof.Laws.EncodeWellFormed.opc14 (t : Sys2Proof.DType) (d : Sys2Proof.Word) (a b : Sys2Proof.Src) :
    Sys2Proof.Laws.EncodeWellFormed.Statement (.opc14 t d a b) := Sys2Proof.Laws.EncodeWellFormed.all _

theorem Sys2Proof.Laws.EncodeWellFormed.opc15 (t : Sys2Proof.DType) (d : Sys2Proof.Word) (a b : Sys2Proof.Src) :
    Sys2Proof.Laws.EncodeWellFormed.Statement (.opc15 t d a b) := Sys2Proof.Laws.EncodeWellFormed.all _
end

