-- ==== Sys2Proof/Tests/Slice0.lean ====
section
/-! SUPPORT. The model's own tests. Every expected value is from spec/95_test_vectors.md (its id is in the test's comment)
or computed by hand from the rule cited; none is the model's own answer pasted back. Then, for each statement with
hypotheses, a concrete state and operands that meet all of them. -/

namespace Sys2Proof.Tests

open Sys2Proof Sys2Proof.Machine

/-! ### A small engine: Config T of spec/95_test_vectors.md -/

/-- Config T: `N = 8`, `L = 4`, `M = 256`, `PROG_CAP = 4`. -/
def configT : Params := { numRegs := 8, numLanes := 4, memBytes := 256, progCap := 4 }

/-- An idle engine of Config T with the given registers and masks set, and the given memory. -/
def engine (regs : List (Nat × List Word)) (masks : List (Nat × List Bool)) (mem : Memory) : State :=
  { State.resetWith configT with
    regs := regs.foldl (fun v p => v.set p.1 p.2) (State.resetWith configT).regs
    masks := masks.foldl (fun k p => k.set p.1 p.2) (State.resetWith configT).masks
    mem := mem }

/-- The same engine at the start of a run of one instruction. -/
def running (i : Instr) (s : State) : State :=
  { s with prog := [encode i], running := true }

/-- The next state of an outcome, if it is one. -/
def nextOf (o : Host.Outcome State Fault Refusal) : Option State :=
  match o with
  | .next t => some t
  | .fault _ => none
  | .refused _ => none

/-- One step of a run of one instruction: register `r` after it, and whether and how it faulted. -/
def outcome (i : Instr) (s : State) (r : Nat) : Option (List Word × Bool × BitVec 3 × Word) :=
  (nextOf (step (running i s))).map fun t => (t.regs.getD r [], t.faulted, t.faultKind, t.faultIndex)

/-- One step of a run of one instruction: the memory after it, and whether and how it faulted. -/
def stored (i : Instr) (s : State) : Option (Memory × Bool × BitVec 3) :=
  (nextOf (step (running i s))).map fun t => (t.mem, t.faulted, t.faultKind)

def all : List Bool := [true, true, true, true]

/-! ### Decoding: words written out from R61 and R71 -/

/-- PR2: `MOV r1 = imm(4)`. -/
theorem test_decode_mov :
    decode (0x00000000#32 ++ 0x00000004#32 ++ 0x00000001#32 ++ 0x00000340#32) = .ok (.mov .s32 1 (.imm 4) (.imm 0)) := by
  decide

/-- E1: `ADD r1 = imm(9) + imm(8)`. -/
theorem test_decode_add :
    decode (0x00000008#32 ++ 0x00000009#32 ++ 0x00000001#32 ++ 0x00000341#32) = .ok (.add .s32 1 (.imm 9) (.imm 8)) := by
  decide

/-- Bit by bit: SRC2 = 7, SRC1 = register 3, DST = 2, RSV = 0, I2 = 1, I1 = 0, DTYPE = 5 (u32), OPC = 2. -/
theorem test_decode_sub :
    decode (7#32 ++ 3#32 ++ 2#32 ++ (0#22 ++ 0b1#1 ++ 0b0#1 ++ 0b0101#4 ++ 0b0010#4)) =
      .ok (.sub .u32 2 (.reg 3) (.imm 7)) := by decide

/-- Bit by bit: I2 = 0, I1 = 1, DTYPE = 0 (s8), OPC = 3. -/
theorem test_decode_mul :
    decode (7#32 ++ 3#32 ++ 2#32 ++ (0#22 ++ 0b0#1 ++ 0b1#1 ++ 0b0000#4 ++ 0b0011#4)) =
      .ok (.mul .s8 2 (.imm 3) (.reg 7)) := by decide

/-- V-DIV-9: `DIV r3 = r1 / r2`. -/
theorem test_decode_div :
    decode (0x00000002#32 ++ 0x00000001#32 ++ 0x00000003#32 ++ 0x00000044#32) = .ok (.div .s32 3 (.reg 1) (.reg 2)) := by
  decide

/-- E4: `LOAD r0 = mem[imm(-1)]`. -/
theorem test_decode_load :
    decode (0x00000000#32 ++ 0xFFFFFFFF#32 ++ 0x00000000#32 ++ 0x00000345#32) =
      .ok (.load .s32 0 (.imm 0xFFFFFFFF) (.imm 0)) := by decide

/-- PR3: `STORE mem[r5] = r6`. -/
theorem test_decode_store :
    decode (0x00000000#32 ++ 0x00000005#32 ++ 0x00000006#32 ++ 0x00000246#32) = .ok (.store .s32 6 (.reg 5) (.imm 0)) := by
  decide

/-- V-UNS-1: `AND r0 = r1 & r2`. -/
theorem test_decode_and :
    decode (2#32 ++ 1#32 ++ 0#32 ++ 0x00000047#32) = .ok (.and .s32 0 (.reg 1) (.reg 2)) := by decide

/-- V-UNS-6: `OR`. -/
theorem test_decode_or :
    decode (2#32 ++ 1#32 ++ 0#32 ++ 0x00000048#32) = .ok (.or .s32 0 (.reg 1) (.reg 2)) := by decide

/-- V-UNS-6: `XOR`. -/
theorem test_decode_xor :
    decode (2#32 ++ 1#32 ++ 0#32 ++ 0x00000049#32) = .ok (.xor .s32 0 (.reg 1) (.reg 2)) := by decide

/-- V-UNS-4: `NOT r0 = ~r1`. -/
theorem test_decode_not :
    decode (0#32 ++ 1#32 ++ 0#32 ++ 0x0000024A#32) = .ok (.not .s32 0 (.reg 1) (.imm 0)) := by decide

/-- V-UNS-5: `SHL r0 = r1 << r9`. -/
theorem test_decode_shl :
    decode (9#32 ++ 1#32 ++ 0#32 ++ 0x0000004B#32) = .ok (.shl .s32 0 (.reg 1) (.reg 9)) := by decide

/-- V-UNS-6: `SHR`. -/
theorem test_decode_shr :
    decode (2#32 ++ 1#32 ++ 0#32 ++ 0x0000004C#32) = .ok (.shr .s32 0 (.reg 1) (.reg 2)) := by decide

/-- V-UNS-6: `OPC13`. -/
theorem test_decode_opc13 :
    decode (2#32 ++ 1#32 ++ 0#32 ++ 0x0000004D#32) = .ok (.opc13 .s32 0 (.reg 1) (.reg 2)) := by decide

/-- V-UNS-6: `OPC14`, with the tag of R66's code 7. -/
theorem test_decode_opc14 :
    decode (2#32 ++ 1#32 ++ 0#32 ++ 0x0000007E#32) = .ok (.opc14 .f32 0 (.reg 1) (.reg 2)) := by decide

/-- V-UNS-3: `OPC15 r0 = imm(0), imm(0)`. -/
theorem test_decode_opc15 :
    decode (0#32 ++ 0#32 ++ 0#32 ++ 0x0000034F#32) = .ok (.opc15 .s32 0 (.imm 0) (.imm 0)) := by decide

/-- R62: E1's word as bytes, `W0` first, each word least-significant byte first. -/
theorem test_decode_bytes :
    decodeBytes [0x41, 0x03, 0, 0, 1, 0, 0, 0, 9, 0, 0, 0, 8, 0, 0, 0, 0xAA] =
      .ok (.add .s32 1 (.imm 9) (.imm 8), [0xAA]) := by decide

/-- R73: the word of E1 from its instruction. -/
theorem test_encode_add :
    encode (.add .s32 1 (.imm 9) (.imm 8)) = 0x00000008#32 ++ 0x00000009#32 ++ 0x00000001#32 ++ 0x00000341#32 := by decide

/-! ### Well-formedness: an ill-formed term for each check -/

/-- V-H-4: RSV bit 10 set. -/
theorem test_wellFormed_refuses_reserved : wordWellFormed (3#32 ++ 2#32 ++ 1#32 ++ 0x00000741#32) = false := by decide

/-- V-H-5: DTYPE = 8. -/
theorem test_wellFormed_refuses_dtype : wordWellFormed (3#32 ++ 2#32 ++ 1#32 ++ 0x00000381#32) = false := by decide

/-- V-VAL-1: DST = 8 in an engine of 8 registers. -/
theorem test_validFor_refuses_dst : (Instr.add .s32 8 (.imm 1) (.imm 1)).validFor 8 = false := by decide

/-- V-VAL-2: SRC1 = r8. -/
theorem test_validFor_refuses_src1 : (Instr.mov .s32 0 (.reg 8) (.imm 0)).validFor 8 = false := by decide

/-- V-VAL-3: the unused SRC2 = r9. -/
theorem test_validFor_refuses_src2 : (Instr.mov .s32 0 (.imm 1) (.reg 9)).validFor 8 = false := by decide

/-- The decoder rejects the two ill-formed words, and bytes that are too few, by name. -/
theorem test_decode_rejects_by_name :
    decode (3#32 ++ 2#32 ++ 1#32 ++ 0x00000741#32) = .error .reservedBits ∧
    decode (3#32 ++ 2#32 ++ 1#32 ++ 0x00000381#32) = .error .dtypeOutsideSet ∧
    decodeBytes [0x41, 0x03, 0, 0, 1, 0, 0, 0, 9, 0, 0, 0, 8, 0, 0] = .error .tooShort := by decide

/-- R64, R73, R74: a listing line is refused for a register number, an immediate, a hex mask out of range, and a
two-source form without its second source. -/
theorem test_listing_refuses :
    (ListingLine.instr 0 none (2 ^ 32) (.imm 0) none).wellFormed 4 = false ∧
    (ListingLine.instr 0 none 0 (.imm (2 ^ 32)) none).wellFormed 4 = false ∧
    (ListingLine.instr 0 none 0 (.imm (-2 ^ 31 - 1)) none).wellFormed 4 = false ∧
    (ListingLine.instr 0 none 0 (.reg (2 ^ 32)) none).wellFormed 4 = false ∧
    (ListingLine.mask 0 (.hex 16)).wellFormed 4 = false ∧
    (ListingLine.instr 1 none 0 (.imm 0) none).wellFormed 4 = false := by decide

/-- R73, R74, PR5: a listing and the commands it stands for. -/
theorem test_listing_assembles :
    assemble 4 [.mask 2 (.hex 0b1100), .instr 0 none 2 (.imm (-1)) none, .instr 1 none 5 (.reg 5) (some (.imm 1)), .run] =
      some [.installMask 2 [false, false, true, true],
        .append (0x00000000#32 ++ 0xFFFFFFFF#32 ++ 0x00000002#32 ++ 0x00000340#32),
        .append (0x00000001#32 ++ 0x00000005#32 ++ 0x00000005#32 ++ 0x00000241#32),
        .executeAll] := by decide

/-! ### Instructions: one step each -/

/-- V-MOV-1: inactive lanes keep their value. -/
theorem test_mov_masked :
    outcome (.mov .s32 0 (.imm 3) (.imm 0)) (engine [(0, [9, 9, 9, 9])] [(0, [true, false, true, false])] []) 0 =
      some ([3, 9, 3, 9], false, 0, 0) := by decide

/-- V-VAL-3: the unused SRC2 is validated. -/
theorem test_mov_unused_src2 :
    outcome (.mov .s32 0 (.imm 1) (.reg 9)) (engine [] [(0, all)] []) 0 = some ([0, 0, 0, 0], true, 1, 0) := by decide

/-- V-ADD-5: the destination is both sources, with wraps. -/
theorem test_add_same_register :
    outcome (.add .s32 1 (.reg 1) (.reg 1)) (engine [(1, [1, 0xFFFFFFFE, 0x40000000, 5])] [(1, all)] []) 1 =
      some ([2, 0xFFFFFFFC, 0x80000000, 10], false, 0, 0) := by decide

/-- V-ADD-7: the u8 tag does not wrap at 8 bits. -/
theorem test_add_tag_inert :
    outcome (.add .u8 0 (.imm 200) (.imm 100)) (engine [] [(0, all)] []) 0 =
      some ([300, 300, 300, 300], false, 0, 0) := by decide

/-- V-SUB-4: the order is `src1 - src2`. -/
theorem test_sub_order :
    outcome (.sub .s32 2 (.reg 0) (.reg 1)) (engine [(0, [10, 0, 5, 0xFFFFFFFB]), (1, [3, 1, 5, 5])] [(2, all)] []) 2 =
      some ([7, 0xFFFFFFFF, 0, 0xFFFFFFF6], false, 0, 0) := by decide

/-- V-SUB-3: `0 - 0x80000000` wraps. -/
theorem test_sub_wraps :
    outcome (.sub .s32 0 (.imm 0) (.imm 0x80000000)) (engine [] [(0, all)] []) 0 =
      some ([0x80000000, 0x80000000, 0x80000000, 0x80000000], false, 0, 0) := by decide

/-- V-MUL-1: a negative product. -/
theorem test_mul_negative :
    outcome (.mul .s32 0 (.imm 0xFFFFFFFD) (.imm 4)) (engine [] [(0, all)] []) 0 =
      some ([0xFFFFFFF4, 0xFFFFFFF4, 0xFFFFFFF4, 0xFFFFFFF4], false, 0, 0) := by decide

/-- V-MUL-5: the high half is lost. -/
theorem test_mul_low_half :
    outcome (.mul .s32 0 (.imm 0x12345678) (.imm 0x10)) (engine [] [(0, [true, false, false, false])] []) 0 =
      some ([0x23456780, 0, 0, 0], false, 0, 0) := by decide

/-- V-DIV-9: lanes below the zero divisor stay written. -/
theorem test_div_partial :
    outcome (.div .s32 3 (.reg 1) (.reg 2))
      (engine [(1, [10, 10, 10, 10]), (2, [2, 2, 0, 2]), (3, [0xFFFFFFF7, 0xFFFFFFF7, 0xFFFFFFF7, 0xFFFFFFF7])]
        [(3, all)] []) 3 = some ([5, 5, 0xFFFFFFF7, 0xFFFFFFF7], true, 3, 0) := by decide

/-- V-DIV-2, V-DIV-3, V-DIV-11, V-DIV-4 in one register: truncation toward zero, and `-2^31 / -1`. -/
theorem test_div_signs :
    outcome (.div .s32 3 (.reg 1) (.reg 2))
      (engine [(1, [0xFFFFFFF9, 7, 0x80000000, 0xFFFFFFF9]), (2, [2, 0xFFFFFFFE, 0xFFFFFFFF, 0xFFFFFFFE])]
        [(3, all)] []) 3 = some ([0xFFFFFFFD, 0xFFFFFFFD, 0x80000000, 3], false, 0, 0) := by decide

/-- V-LD-7: lanes below the bad address stay loaded. -/
theorem test_load_partial :
    outcome (.load .s32 1 (.reg 0) (.imm 0))
      (engine [(0, [0, 1, 300, 2]), (1, [9, 9, 9, 9])] [(1, all)] [(0, 1), (1, 2), (2, 3)]) 1 =
      some ([1, 2, 9, 9], true, 2, 0) := by decide

/-- V-LD-2 and V-LD-6: sign extension, the two ends of memory, an unwritten byte. -/
theorem test_load_sign_and_ends :
    outcome (.load .s32 1 (.reg 0) (.imm 0)) (engine [(0, [5, 255, 0, 7])] [(1, all)] [(5, 0x80), (255, 2)]) 1 =
      some ([0xFFFFFF80, 2, 0, 0], false, 0, 0) := by decide

/-- V-ST-4: bytes below the bad address stay stored, the lane above is not reached. -/
theorem test_store_partial :
    stored (.store .s32 0 (.reg 1) (.imm 0))
      (engine [(0, [0x11, 0x22, 0x33, 0x44]), (1, [10, 11, 0xFFFFFFFF, 12])] [(0, all)] []) =
      some ([(10, 0x11), (11, 0x22)], true, 2) := by decide

/-- V-ST-2: the highest active lane wins; V-ST-6: only the low byte is stored. -/
theorem test_store_highest_lane :
    stored (.store .s32 0 (.imm 9) (.imm 0)) (engine [(0, [1, 2, 3, 0x1C8])] [(0, all)] []) =
      some ([(9, 0xC8)], false, 0) := by decide

/-- V-UNS-1: fault at the first active lane, nothing written. -/
theorem test_and_faults :
    outcome (.and .s32 0 (.reg 1) (.reg 2)) (engine [(0, [1, 2, 3, 4])] [(0, all)] []) 0 =
      some ([1, 2, 3, 4], true, 4, 0) := by decide

/-- V-UNS-2: no active lane, no effect. -/
theorem test_and_no_active_lane :
    outcome (.and .s32 0 (.reg 1) (.reg 2)) (engine [(0, [1, 2, 3, 4])] [] []) 0 =
      some ([1, 2, 3, 4], false, 0, 0) := by decide

/-- V-UNS-6: OR. -/
theorem test_or_faults :
    outcome (.or .s32 0 (.reg 1) (.reg 2)) (engine [] [(0, all)] []) 0 = some ([0, 0, 0, 0], true, 4, 0) := by decide

/-- V-UNS-6: XOR. -/
theorem test_xor_faults :
    outcome (.xor .s32 0 (.reg 1) (.reg 2)) (engine [] [(0, all)] []) 0 = some ([0, 0, 0, 0], true, 4, 0) := by decide

/-- V-UNS-4: NOT. -/
theorem test_not_faults :
    outcome (.not .s32 0 (.reg 1) (.imm 0)) (engine [] [(0, all)] []) 0 = some ([0, 0, 0, 0], true, 4, 0) := by decide

/-- V-UNS-5: validation comes before the unsupported opcode. -/
theorem test_shl_validation_first :
    outcome (.shl .s32 0 (.reg 1) (.reg 9)) (engine [] [(0, all)] []) 0 = some ([0, 0, 0, 0], true, 1, 0) := by decide

/-- V-UNS-6: SHR. -/
theorem test_shr_faults :
    outcome (.shr .s32 0 (.reg 1) (.reg 2)) (engine [] [(0, all)] []) 0 = some ([0, 0, 0, 0], true, 4, 0) := by decide

/-- V-UNS-6: OPC13. -/
theorem test_opc13_faults :
    outcome (.opc13 .s32 0 (.reg 1) (.reg 2)) (engine [] [(0, all)] []) 0 = some ([0, 0, 0, 0], true, 4, 0) := by decide

/-- V-UNS-6: OPC14. -/
theorem test_opc14_faults :
    outcome (.opc14 .s32 0 (.reg 1) (.reg 2)) (engine [] [(0, all)] []) 0 = some ([0, 0, 0, 0], true, 4, 0) := by decide

/-- V-UNS-3: one active lane is enough. -/
theorem test_opc15_faults :
    outcome (.opc15 .s32 0 (.imm 0) (.imm 0)) (engine [] [(0, [false, true, false, false])] []) 0 =
      some ([0, 0, 0, 0], true, 4, 0) := by decide

/-! ### The run loop and the host commands -/

/-- The responses one step adds, and PROG_LEN and the masks after it. -/
def served (c : Command) (s : State) : Option (List Response × Nat × List (List Bool)) :=
  (nextOf (step { s with inbox := [c] })).map fun t => (t.outbox, t.plen, t.masks)

/-- V-H-9: the end of a run of no instruction. -/
theorem test_run_end :
    (nextOf (step { engine [] [] [] with running := true })).map (fun t => (t.executed, t.running, t.outbox)) =
      some (true, false, [{ code := .ok, data := .none }]) := by decide

/-- V-DIV-7: the response and the status of a fault (`STATUS = 0x0F`). -/
theorem test_fault_status :
    (nextOf (step (running (.div .s32 3 (.imm 9) (.imm 0)) (engine [] [(3, all)] [])))).map
      (fun t => (t.outbox, t.statusWord, t.faultIndex, t.progLenWord, t.running)) =
      some ([{ code := .divideByZero, data := .faultIndex 0 }], 0x0000000F, 0, 1, false) := by decide

/-- V-RUN-3: FAULT_INDEX is the cursor (`STATUS = 0x0B`). -/
theorem test_fault_index :
    (nextOf (step { engine [] [(0, all)] [] with
      prog := [encode (.mov .s32 0 (.imm 1) (.imm 0)), encode (.mov .s32 0 (.imm 2) (.imm 0)),
        encode (.load .s32 0 (.imm 999) (.imm 0))], pc := 2, running := true })).map
      (fun t => (t.statusWord, t.faultIndex)) = some (0x0000000B, 2) := by decide

/-- V-H-1 and V-H-2: `install_mask`. -/
theorem test_install_mask :
    served (.installMask 3 [false, true, false, true]) (engine [] [] []) =
      some ([{ code := .ok, data := .none }], 0, (engine [] [(3, [false, true, false, true])] []).masks) ∧
    served (.installMask 8 all) (engine [] [] []) =
      some ([{ code := .invalidRegister, data := .none }], 0, (engine [] [] []).masks) := by decide

/-- V-H-4, V-H-10, V-H-6: `append`. -/
theorem test_append :
    (served (.append (3#32 ++ 2#32 ++ 1#32 ++ 0x00000741#32)) (engine [] [] [])).map (fun p => (p.1, p.2.1)) =
      some ([{ code := .malformedRecord, data := .none }], 0) ∧
    (served (.append (0#32 ++ 0#32 ++ 0#32 ++ 0x0000034F#32)) (engine [] [] [])).map (fun p => (p.1, p.2.1)) =
      some ([{ code := .ok, data := .none }], 1) ∧
    (served (.append 0) { engine [] [] [] with prog := [0, 0, 0, 0] }).map (fun p => (p.1, p.2.1)) =
      some ([{ code := .programFull, data := .none }], 4) := by decide

/-- V-H-3 and V-H-8: the reads. -/
theorem test_reads :
    (served (.readRegister 8) (engine [] [] [])).map Prod.fst = some [{ code := .invalidRegister, data := .none }] ∧
    (served (.readRegister 1) (engine [(1, [1, 2, 3, 4])] [] [])).map Prod.fst =
      some [{ code := .ok, data := .lanes [1, 2, 3, 4] }] ∧
    (served (.readMask 0xFFFFFFFF) (engine [] [] [])).map Prod.fst = some [{ code := .invalidRegister, data := .none }] ∧
    (served .readStatus (engine [] [] [])).map Prod.fst = some [{ code := .ok, data := .status 0 0 0 }] := by decide

/-- R80, R82: every row's word runs as the first instruction after reset. -/
theorem test_first_instruction_after_reset :
    (List.range 16).all (fun w => (nextOf (step (State.reset.withFetchWord 32 w))).any
      (fun t => t.pc == 1 && !t.faulted)) = true := by decide

/-! ### Witnesses: for each statement with hypotheses, a state and operands that meet them -/

/-- An engine of Config T: four registers filled, all lanes of r0, r1 and r3 active, lanes 0, 1 and 3 of r2. -/
def base : State :=
  engine [(0, [5, 6, 7, 8]), (1, [0, 255, 256, 0xFFFFFFFF]), (2, [2, 0, 2, 2]), (3, [1, 2, 3, 0xFFFFFF80])]
    [(0, all), (1, all), (2, [true, true, false, true]), (3, all)] [(0, 0x80), (255, 0x7F)]

/-- `base` at the start of a run of one MOV. -/
def inRun : State := running (.mov .s32 0 (.imm 1) (.imm 0)) base

/-- `base` after a run of one instruction that faulted, with commands waiting. -/
def afterAFault : State :=
  { base with
    prog := [encode (.div .s32 3 (.imm 9) (.imm 0))], executed := true, faulted := true, faultKind := 3
    inbox := [.readStatus, .executeAll] }

/-- Well-formedness of a program's words, from one evaluation over the program. -/
theorem words_ok {s : State} (h : s.prog.all wordWellFormed = true) : ∀ w ∈ s.prog, wordWellFormed w = true :=
  List.all_eq_true.mp h

theorem base_inv : base.Inv :=
  ⟨by decide, by decide, by decide, by decide, by decide, by decide, by decide, by decide, words_ok (by decide),
    ⟨by decide, by decide, by decide, by decide⟩, by decide⟩

theorem inRun_inv : inRun.Inv :=
  ⟨by decide, by decide, by decide, by decide, by decide, by decide, by decide, by decide, words_ok (by decide),
    ⟨by decide, by decide, by decide, by decide⟩, by decide⟩

theorem afterAFault_inv : afterAFault.Inv :=
  ⟨by decide, by decide, by decide, by decide, by decide, by decide, by decide, by decide, words_ok (by decide),
    ⟨by decide, by decide, by decide, by decide⟩, by decide⟩

/-- A property of the active lanes of an engine of four lanes, checked lane by lane. -/
theorem active_lanes {s : State} {d : Word} {P : Nat → Prop} (hL : s.params.numLanes = 4)
    (h : ∀ l : Fin 4, s.maskBit (uint d) l.val = true → P l.val) : ∀ l, s.active d l → P l :=
  fun l hl => h ⟨l, hL ▸ hl.1⟩ hl.2

theorem no_active_lane {s : State} {d : Word} (hL : s.params.numLanes = 4)
    (h : ∀ l : Fin 4, s.maskBit (uint d) l.val = false) : ∀ l, ¬s.active d l :=
  active_lanes hL fun l hl => by rw [h l] at hl; cases hl

theorem witness_EncodeOfDecode :
    decode (0x8#32 ++ 0x9#32 ++ 0x1#32 ++ 0x341#32) = .ok (.add .s32 0x1#32 (.imm 0x9#32) (.imm 0x8#32)) := by decide

theorem witness_WellFormedWordsDecode :
    base.faulted = false ∧
    ((0x3#32 ++ 0x2#32 ++ 0x1#32 ++ 0x741#32 : IWord).extractLsb' 0 32 &&& 0xFFFFFC80#32) ≠ 0#32 := by decide

theorem witness_FieldsAreReadFromTheirBits :
    decode (0xFFFFFFFF#32 ++ 0x80000000#32 ++ 0xFFFFFFFF#32 ++ 0x274#32) =
      .ok (.div .f32 0xFFFFFFFF#32 (.reg 0x80000000#32) (.imm 0xFFFFFFFF#32)) := by decide

theorem witness_SerialisedWordIsLittleEndian :
    decode (0x0#32 ++ 0x0#32 ++ 0x0#32 ++ 0x34F#32) = .ok (.opc15 .s32 0x0#32 (.imm 0x0#32) (.imm 0x0#32)) ∧
    decode (0x0#32 ++ 0x0#32 ++ 0x0#32 ++ 0x80#32) = .error .dtypeOutsideSet := by decide

theorem witness_EveryWellFormedWordHasASpelling :
    wordWellFormed (0xFFFFFFFF#32 ++ 0xFFFFFFFF#32 ++ 0xFFFFFFFF#32 ++ 0x37F#32) = true := by decide

theorem witness_MaskLinesInstallTheirBits : 2 ^ 32 - 1 < 2 ^ 32 ∧ 2 ^ 4 - 1 < 2 ^ 4 := by decide

/-- Each failing check at the boundary index `N`, and the passing clause at `N - 1`. -/
theorem witness_ValidationComesBeforeAnyLane :
    base.params.numRegs ≤ uint (Instr.add .s32 8 (.imm 0) (.imm 0)).dst ∧
    (∃ f, (Instr.or .s32 0 (.reg 8) (.imm 0)).src1 = .reg f ∧ base.params.numRegs ≤ uint f) ∧
    (∃ f, (Instr.load .s32 0 (.imm 0) (.reg 8)).src2 = .reg f ∧ base.params.numRegs ≤ uint f) ∧
    uint (Instr.opc13 .s32 7 (.reg 7) (.imm 8)).dst < base.params.numRegs ∧
    (∀ f, (Instr.opc13 .s32 7 (.reg 7) (.imm 8)).src1 = .reg f → uint f < base.params.numRegs) ∧
    (∀ f, (Instr.opc13 .s32 7 (.reg 7) (.imm 8)).src2 = .reg f → uint f < base.params.numRegs) ∧
    base.faulted = false := by
  refine ⟨by decide, ⟨8, rfl, by decide⟩, ⟨8, rfl, by decide⟩, by decide, ?_, ?_, by decide⟩
  · intro f h; cases h; decide
  · intro f h; cases h

theorem witness_MovCopiesItsSource :
    base.Inv ∧ (Instr.mov .u8 7 (.reg 7) (.imm 8)).validFor base.params.numRegs = true := ⟨base_inv, by decide⟩

theorem witness_AddWritesTheWrappedSum :
    base.Inv ∧ (Instr.add .s32 1 (.reg 1) (.reg 1)).validFor base.params.numRegs = true := ⟨base_inv, by decide⟩

theorem witness_SubWritesTheWrappedDifference :
    base.Inv ∧ (Instr.sub .s32 2 (.reg 7) (.imm 9)).validFor base.params.numRegs = true := ⟨base_inv, by decide⟩

theorem witness_MulWritesTheLowProduct :
    base.Inv ∧ (Instr.mul .s32 0 (.imm 9) (.reg 1)).validFor base.params.numRegs = true := ⟨base_inv, by decide⟩

/-- No zero divisor in an active lane (r3 has none), then a first zero divisor in lane 1 (r2). -/
theorem witness_DivLaneByLane :
    base.Inv ∧ (Instr.div .s32 3 (.reg 1) (.reg 3)).validFor base.params.numRegs = true ∧
    (∀ l, base.active 3 l → sint (operand (.reg 3) l base) ≠ 0) ∧
    (Instr.div .s32 3 (.reg 1) (.reg 2)).validFor base.params.numRegs = true ∧
    base.active 3 1 ∧ sint (operand (.reg 2) 1 base) = 0 ∧
    (∀ l, l < 1 → base.active 3 l → sint (operand (.reg 2) l base) ≠ 0) := by
  refine ⟨base_inv, by decide, active_lanes rfl (by decide), by decide, ⟨by decide, by decide⟩, by decide, ?_⟩
  intro l hl _
  obtain rfl : l = 0 := by omega
  decide

/-- Addresses 0 and `M - 1` in the active lanes, then `M` in lane 2. -/
theorem witness_LoadLaneByLane :
    base.Inv ∧ (Instr.load .s32 3 (.imm 255) (.imm 0)).validFor base.params.numRegs = true ∧
    (∀ l, base.active 3 l → 0 ≤ sint (operand (.imm 255) l base) ∧
      sint (operand (.imm 255) l base) < (base.params.memBytes : Int)) ∧
    (Instr.load .s32 3 (.reg 1) (.imm 0)).validFor base.params.numRegs = true ∧ base.active 3 2 ∧
    ¬(0 ≤ sint (operand (.reg 1) 2 base) ∧ sint (operand (.reg 1) 2 base) < (base.params.memBytes : Int)) ∧
    (∀ l, l < 2 → base.active 3 l → 0 ≤ sint (operand (.reg 1) l base) ∧
      sint (operand (.reg 1) l base) < (base.params.memBytes : Int)) := by
  refine ⟨base_inv, by decide, active_lanes rfl (by decide), by decide, ⟨by decide, by decide⟩, by decide, ?_⟩
  intro l hl _
  obtain rfl | rfl : l = 0 ∨ l = 1 := by omega
  · decide
  · decide

/-- Address 0 in every active lane, then (dst r2, whose lane 2 is inactive) address -1 in lane 3. -/
theorem witness_StoreLaneByLane :
    base.Inv ∧ (Instr.store .s32 3 (.imm 0) (.imm 0)).validFor base.params.numRegs = true ∧
    (∀ l, base.active 3 l → 0 ≤ sint (operand (.imm 0) l base) ∧
      sint (operand (.imm 0) l base) < (base.params.memBytes : Int)) ∧
    (Instr.store .s32 2 (.reg 1) (.imm 0)).validFor base.params.numRegs = true ∧ base.active 2 3 ∧
    ¬(0 ≤ sint (operand (.reg 1) 3 base) ∧ sint (operand (.reg 1) 3 base) < (base.params.memBytes : Int)) ∧
    (∀ l, l < 3 → base.active 2 l → 0 ≤ sint (operand (.reg 1) l base) ∧
      sint (operand (.reg 1) l base) < (base.params.memBytes : Int)) := by
  refine ⟨base_inv, by decide, active_lanes rfl (by decide), by decide, ⟨by decide, by decide⟩, by decide, ?_⟩
  intro l hl ha
  obtain rfl | rfl | rfl : l = 0 ∨ l = 1 ∨ l = 2 := by omega
  · decide
  · decide
  · exact absurd ha.2 (by decide)

/-- An active lane of r0, and none of r7. -/
theorem witness_DeclaredOpcodesFaultAtTheFirstActiveLane :
    Instr.shr .s32 0 (.reg 1) (.reg 2) ∈ [Instr.and .s32 0 (.reg 1) (.reg 2), .or .s32 0 (.reg 1) (.reg 2),
      .xor .s32 0 (.reg 1) (.reg 2), .not .s32 0 (.reg 1) (.reg 2), .shl .s32 0 (.reg 1) (.reg 2),
      .shr .s32 0 (.reg 1) (.reg 2)] ∧
    (Instr.shr .s32 0 (.reg 1) (.reg 2)).validFor base.params.numRegs = true ∧ (∃ l, base.active 0 l) ∧
    (Instr.shr .s32 7 (.reg 1) (.reg 2)).validFor base.params.numRegs = true ∧ (∀ l, ¬base.active 7 l) :=
  ⟨by decide, by decide, ⟨0, by decide, by decide⟩, by decide, no_active_lane rfl (by decide)⟩

theorem witness_UnrecognisedOpcodesFaultAtTheFirstActiveLane :
    Instr.opc15 .s32 0 (.reg 1) (.reg 2) ∈ [Instr.opc13 .s32 0 (.reg 1) (.reg 2), .opc14 .s32 0 (.reg 1) (.reg 2),
      .opc15 .s32 0 (.reg 1) (.reg 2)] ∧
    (Instr.opc15 .s32 0 (.reg 1) (.reg 2)).validFor base.params.numRegs = true ∧ (∃ l, base.active 0 l) ∧
    (Instr.opc15 .s32 7 (.reg 1) (.reg 2)).validFor base.params.numRegs = true ∧ (∀ l, ¬base.active 7 l) :=
  ⟨by decide, by decide, ⟨3, by decide, by decide⟩, by decide, no_active_lane rfl (by decide)⟩

theorem witness_NoActiveLaneNoEffect :
    (Instr.load .s32 7 (.imm 0xFFFFFFFF) (.imm 0)).validFor base.params.numRegs = true ∧
    (∀ l, ¬base.active (Instr.load .s32 7 (.imm 0xFFFFFFFF) (.imm 0)).dst l) :=
  ⟨by decide, no_active_lane rfl (by decide)⟩

/-- `ADD` with the tags of codes 0 and 7. -/
theorem witness_DataTypeIsInert :
    decode (0x8#32 ++ 0x9#32 ++ 0x1#32 ++ 0x301#32) = .ok (.add .s8 1 (.imm 9) (.imm 8)) ∧
    decode (0x8#32 ++ 0x9#32 ++ 0x1#32 ++ 0x371#32) = .ok (.add .f32 1 (.imm 9) (.imm 8)) ∧
    ∀ k : Fin 128, ¬(4 ≤ k.val ∧ k.val < 8) →
      (0x8#32 ++ 0x9#32 ++ 0x1#32 ++ 0x301#32 : IWord).getLsbD k.val =
        (0x8#32 ++ 0x9#32 ++ 0x1#32 ++ 0x371#32 : IWord).getLsbD k.val := by decide

/-- r3 stored at address 9, r0 loaded from it: lane 3 is the highest active lane of r3. -/
theorem witness_StoreThenLoadRoundTrip :
    base.Inv ∧ ∃ t u, exec (.store .s32 3 (.imm 9) (.imm 0)) base = .next t ∧ t.faulted = false ∧
      exec (.load .s32 0 (.imm 9) (.imm 0)) t = .next u ∧ u.faulted = false ∧ base.active 3 3 ∧ base.active 0 3 ∧
      (∀ k, 3 < k → base.active 3 k → sint (operand (.imm 9) k base) ≠ sint (operand (.imm 9) 3 base)) := by
  refine ⟨base_inv, _, _, rfl, by decide, rfl, by decide, ⟨by decide, by decide⟩, ⟨by decide, by decide⟩, ?_⟩
  intro k hk ha
  have : k < 4 := ha.1
  omega

/-- A next state for an opcode that is not STORE and for one that changes no register. -/
theorem witness_InstructionFrame :
    (∃ t, exec (.add .s32 0 (.imm 1) (.imm 1)) base = .next t) ∧ opcodeOf (.add .s32 0 (.imm 1) (.imm 1)) ≠ 6 ∧
    (∃ t, exec (.store .s32 0 (.imm 1) (.imm 1)) base = .next t) ∧
    6 ≤ (opcodeOf (.store .s32 0 (.imm 1) (.imm 1))).toNat := ⟨⟨_, rfl⟩, by decide, ⟨_, rfl⟩, by decide⟩

theorem witness_StoreFrame :
    base.Inv ∧ (∃ t, exec (.store .s32 0 (.imm 255) (.imm 0)) base = .next t) ∧
    ∀ l, base.active 0 l → (sint (effectiveAddress (.imm 255) l base)).toNat ≠ 0 :=
  ⟨base_inv, ⟨_, rfl⟩, active_lanes rfl (by decide)⟩

/-- Two states that differ in lane 2 of r5, inactive for r2. -/
theorem witness_InactiveLanesPlayNoPart :
    base.Inv ∧ (base.setLane 5 2 77).Inv ∧
    base.setLane 5 2 77 = { base with regs := (base.setLane 5 2 77).regs } ∧
    base.setLane 5 2 77 ≠ base ∧
    (∀ r l, base.active (Instr.add .s32 2 (.reg 5) (.imm 1)).dst l → (base.setLane 5 2 77).lane r l = base.lane r l) ∧
    (∃ t, exec (.add .s32 2 (.reg 5) (.imm 1)) base = .next t) ∧
    ∃ t, exec (.add .s32 2 (.reg 5) (.imm 1)) (base.setLane 5 2 77) = .next t := by
  refine ⟨base_inv, ?_, rfl, by decide, ?_, ⟨_, rfl⟩, ⟨_, rfl⟩⟩
  · exact ⟨by decide, by decide, by decide, by decide, by decide, by decide, by decide, by decide, words_ok (by decide),
      ⟨by decide, by decide, by decide, by decide⟩, by decide⟩
  · intro r
    refine active_lanes rfl fun l hl => lane_setLane_other _ _ ?_
    rintro ⟨-, h⟩
    rw [h] at hl
    exact absurd hl (by decide)

/-- A fault of each of the three lane kinds from an unfaulted state that passes validation. -/
theorem witness_OpcodeDecidesTheFaultKind :
    base.faulted = false ∧
    (Instr.div .s32 0 (.imm 1) (.imm 0)).validFor base.params.numRegs = true ∧
    (∃ t, exec (.div .s32 0 (.imm 1) (.imm 0)) base = .next t ∧ t.faulted = true) ∧
    (Instr.load .s32 0 (.imm 256) (.imm 0)).validFor base.params.numRegs = true ∧
    (∃ t, exec (.load .s32 0 (.imm 256) (.imm 0)) base = .next t ∧ t.faulted = true) ∧
    (Instr.and .s32 0 (.imm 1) (.imm 0)).validFor base.params.numRegs = true ∧
    (∃ t, exec (.and .s32 0 (.imm 1) (.imm 0)) base = .next t ∧ t.faulted = true) :=
  ⟨by decide, by decide, ⟨_, rfl, by decide⟩, by decide, ⟨_, rfl, by decide⟩, by decide, ⟨_, rfl, by decide⟩⟩

theorem witness_FaultIsSticky :
    afterAFault.Inv ∧ afterAFault.faulted = true ∧ Command.reset ∉ afterAFault.inbox ∧
    ∃ t, Reaches 1 afterAFault t :=
  ⟨afterAFault_inv, by decide, by decide, _, rfl⟩

/-- The two ends of memory. -/
theorem witness_MemoryReadsWhatWasWritten :
    base.Inv ∧ base.inRange 0 = true ∧ base.inRange 255 = true ∧ (255 : Word) ≠ 0 :=
  ⟨base_inv, by decide, by decide, by decide⟩

/-- Legal parameters at both ends of the range of `M`; a pattern with bit 31 set. -/
theorem witness_AddressCheck :
    (State.resetWith { numRegs := 1, numLanes := 1, memBytes := 1, progCap := 1 }).params.legal = true ∧
    (State.resetWith { numRegs := 1, numLanes := 1, memBytes := 2 ^ 31, progCap := 1 }).params.legal = true ∧
    (0x80000000#32).getLsbD 31 = true := by decide

theorem witness_StepRunsTheDecodedInstruction :
    inRun.running = true ∧ inRun.prog[uint inRun.pc]? = some (0x0#32 ++ 0x1#32 ++ 0x0#32 ++ 0x340#32) ∧
    decode (0x0#32 ++ 0x1#32 ++ 0x0#32 ++ 0x340#32) = .ok (.mov .s32 0 (.imm 1) (.imm 0)) := by decide

theorem witness_RunEndsAtTheEndOfTheProgram :
    { inRun with pc := 1 }.running = true ∧ State.plen { inRun with pc := 1 } ≤ uint { inRun with pc := 1 }.pc := by
  decide

theorem witness_EmptyRunOnlySetsExecuted : base.faulted = false ∧ base.running = false ∧ base.prog = [] := by decide

theorem witness_CursorVisitsEachInstructionInOrder :
    inRun.Inv ∧ inRun.running = true ∧ inRun.pc = 0#32 ∧ inRun.inbox = [] ∧
    ∃ t, Reaches 1 inRun t ∧ t.running = true := ⟨inRun_inv, by decide, by decide, by decide, _, rfl, by decide⟩

theorem witness_MasksAndProgramAreConstantDuringARun : inRun.running = true ∧ ∃ t, step inRun = .next t :=
  ⟨by decide, _, rfl⟩

theorem witness_ResetMeetsTheInvariant : configT.legal = true := by decide

theorem witness_EveryStepKeepsTheInvariant : inRun.Inv ∧ ∃ t, step inRun = .next t := ⟨inRun_inv, _, rfl⟩

theorem witness_NoStepStops : inRun.Inv := inRun_inv

theorem witness_StepsRefineTheAtomicTransaction :
    { base with prog := inRun.prog, inbox := [.executeAll, .readStatus] }.Inv ∧
    { base with prog := inRun.prog, inbox := [.executeAll, .readStatus] }.running = false ∧
    { base with prog := inRun.prog, inbox := [.executeAll, .readStatus] }.inbox = .executeAll :: [.readStatus] :=
  ⟨⟨by decide, by decide, by decide, by decide, by decide, by decide, by decide, by decide, words_ok (by decide),
    ⟨by decide, by decide, by decide, by decide⟩, by decide⟩, by decide, by decide⟩

theorem witness_StepTakesTheOldestCommand :
    base.running = false ∧ base.inbox = [] ∧ afterAFault.running = false ∧
    afterAFault.inbox = .readStatus :: [.executeAll] := by decide

/-- Refused while faulted; refused at index `N`; accepted at index `N - 1`. -/
theorem witness_InstallMaskSetsOneMask :
    base.Inv ∧ all.length = base.params.numLanes ∧ afterAFault.Inv ∧ all.length = afterAFault.params.numLanes ∧
    afterAFault.faulted = true ∧ base.faulted = false ∧ base.params.numRegs ≤ uint 8 ∧ uint 7 < base.params.numRegs :=
  ⟨base_inv, by decide, afterAFault_inv, by decide, by decide, by decide, by decide, by decide⟩

theorem witness_InstalledMaskReadsBack :
    base.Inv ∧ base.faulted = false ∧ uint 7 < base.params.numRegs ∧
    [false, true, false, true].length = base.params.numLanes := ⟨base_inv, by decide, by decide, by decide⟩

/-- Each of the four outcomes of `append`. -/
theorem witness_AppendAddsAtTheEnd :
    afterAFault.faulted = true ∧ base.faulted = false ∧
    ((0x3#32 ++ 0x2#32 ++ 0x1#32 ++ 0x80#32 : IWord).extractLsb' 0 32 &&& 0xFFFFFC80#32) ≠ 0#32 ∧
    ((0x3#32 ++ 0x2#32 ++ 0x1#32 ++ 0x37F#32 : IWord).extractLsb' 0 32 &&& 0xFFFFFC80#32) = 0#32 ∧
    { base with prog := [0, 0, 0, 0] }.prog.length = base.params.progCap ∧ base.prog.length ≠ base.params.progCap := by
  decide

theorem witness_ExecuteAllStartsFromTheCurrentState : afterAFault.faulted = true ∧ base.faulted = false := by decide

theorem witness_ReadRegisterReturnsTheLanes :
    base.Inv ∧ base.params.numRegs ≤ uint 8 ∧ uint 7 < base.params.numRegs := ⟨base_inv, by decide, by decide⟩

theorem witness_ReadStatusLayout : afterAFault.Inv ∧ afterAFault.faulted = true ∧ base.Inv ∧ base.faulted = false :=
  ⟨afterAFault_inv, by decide, base_inv, by decide⟩

theorem witness_CommandErrorsChangeNothing :
    (takeCommand (.readMask 8) base).outbox = base.outbox ++ [{ code := .invalidRegister, data := .none }] ∧
    ResponseCode.invalidRegister ≠ .ok ∧ (takeCommand .readStatus afterAFault).faulted = true := by decide

theorem witness_MasksChangeOnlyByInstallMask :
    ∃ t, step { base with inbox := [.installMask 7 all] } = .next t ∧
      t.masks[7]? ≠ { base with inbox := [.installMask 7 all] }.masks[7]? := ⟨_, rfl, by decide⟩

theorem witness_ProgramIsAppendOnly : inRun.Inv ∧ ∃ t, step inRun = .next t := ⟨inRun_inv, _, rfl⟩

theorem witness_HostNeverWritesMemoryOrRegisters :
    afterAFault.running = false ∧ (∀ cs, afterAFault.inbox ≠ .reset :: cs) ∧ ∃ t, step afterAFault = .next t :=
  ⟨by decide, (fun cs h => by cases h), _, rfl⟩

/-- A run that ends, a `reset` of an executed engine, and a run whose end sets EXECUTED. -/
theorem witness_ExecutedRecordsThatARunEnded :
    (∃ t, step { inRun with pc := 1 } = .next t ∧ { inRun with pc := 1 }.running = true ∧ t.running = false ∧
      { inRun with pc := 1 }.executed = false ∧ t.executed = true) ∧
    (∃ t, step { afterAFault with inbox := [.reset] } = .next t ∧ afterAFault.executed = true ∧ t.executed = false) :=
  ⟨⟨_, rfl, by decide, by decide, by decide, by decide⟩, ⟨_, rfl, by decide, by decide⟩⟩

theorem witness_ParametersNeverChange : ∃ t, step { afterAFault with inbox := [.reset] } = .next t := ⟨_, rfl⟩

end Sys2Proof.Tests
end

/-! ## The step machine and its invariant

How a step and a host command behave, the invariant every step keeps (spec/10_state.md), and the refinement of the
atomic transaction of spec/00_scope.md R3 by the steps of a run (spec/40_execution.md R80). -/

namespace Sys2Proof.Machine

/-! ### One step -/

theorem step_of_fetch_none {s : State} (hr : s.running = true) (hf : fetch s = none) : step s = .next (endRun s) := by
  simp [step, hr, hf]

theorem step_of_fetch_some {s : State} {w : IWord} {i : Instr} (hr : s.running = true) (hf : fetch s = some w)
    (hd : decode w = .ok i) : step s = exec i s := by
  simp [step, hr, hf, hd]

theorem step_of_command {s : State} {c : Command} {cs : List Command} (hr : s.running = false)
    (hb : s.inbox = c :: cs) : step s = .next (takeCommand c { s with inbox := cs }) := by
  simp [step, hr, serveHost, hb]

theorem serveHost_cases (s : State) :
    serveHost s = s ∨ ∃ c cs, s.inbox = c :: cs ∧ serveHost s = takeCommand c { s with inbox := cs } := by
  cases hb : s.inbox with
  | nil => exact .inl (by simp [serveHost, hb])
  | cons c cs => exact .inr ⟨c, cs, rfl, by simp [serveHost, hb]⟩

/-! ### One host command -/

theorem takeCommand_executeAll {s : State} (hf : s.faulted = false) :
    takeCommand .executeAll s = { s with pc := 0#32, running := true } := by
  simp [takeCommand, cmdExecuteAll, hf]

/-- What taking a command can do, guards included: only respond (a read, or a refusal), reset, install a mask, append a
word, or start a run. -/
theorem takeCommand_cases (c : Command) (s : State) :
    (∃ k d, takeCommand c s = State.respond k d s) ∨
    (c = .reset ∧ takeCommand c s = cmdReset s) ∨
    (∃ r m, c = .installMask r m ∧ s.faulted = false ∧ uint r < s.params.numRegs ∧
      takeCommand c s =
        State.respond .ok .none { s with masks := s.masks.set (uint r) (fitMask s.params.numLanes m) }) ∨
    (∃ w, c = .append w ∧ s.faulted = false ∧ wordWellFormed w = true ∧ s.plen ≠ s.params.progCap ∧
      takeCommand c s = State.respond .ok .none { s with prog := s.prog ++ [w] }) ∨
    (c = .executeAll ∧ s.faulted = false ∧ takeCommand c s = { s with pc := 0#32, running := true }) := by
  cases c with
  | reset => exact .inr (.inl ⟨rfl, rfl⟩)
  | installMask r m =>
    simp only [takeCommand, cmdInstallMask]
    split
    · exact .inl ⟨_, _, rfl⟩
    · rename_i hf
      split
      · exact .inl ⟨_, _, rfl⟩
      · rename_i hr
        exact .inr (.inr (.inl ⟨r, m, rfl, by simpa using hf, Nat.lt_of_not_le hr, rfl⟩))
  | append w =>
    simp only [takeCommand, cmdAppend]
    split
    · exact .inl ⟨_, _, rfl⟩
    · rename_i hf
      split
      · exact .inl ⟨_, _, rfl⟩
      · rename_i hw
        split
        · exact .inl ⟨_, _, rfl⟩
        · rename_i hcap
          exact .inr (.inr (.inr (.inl ⟨w, rfl, by simpa using hf, by simpa using hw, hcap, rfl⟩)))
  | executeAll =>
    by_cases hf : s.faulted = true
    · exact .inl ⟨.engineFaulted, .none, by simp [takeCommand, cmdExecuteAll, hf]⟩
    · have hf : s.faulted = false := by simpa using hf
      exact .inr (.inr (.inr (.inr ⟨rfl, hf, takeCommand_executeAll hf⟩)))
  | readRegister r =>
    simp only [takeCommand, cmdReadRegister]
    split <;> exact .inl ⟨_, _, rfl⟩
  | readMask r =>
    simp only [takeCommand, cmdReadMask]
    split <;> exact .inl ⟨_, _, rfl⟩
  | readStatus => exact .inl ⟨_, _, rfl⟩

@[simp] theorem takeCommand_params (c : Command) (s : State) : (takeCommand c s).params = s.params := by
  rcases takeCommand_cases c s with ⟨k, d, h⟩ | ⟨-, h⟩ | ⟨r, m, -, -, -, h⟩ | ⟨w, -, -, -, -, h⟩ | ⟨-, -, h⟩ <;>
    rw [h] <;> rfl

@[simp] theorem takeCommand_inbox (c : Command) (s : State) : (takeCommand c s).inbox = s.inbox := by
  rcases takeCommand_cases c s with ⟨k, d, h⟩ | ⟨-, h⟩ | ⟨r, m, -, -, -, h⟩ | ⟨w, -, -, -, -, h⟩ | ⟨-, -, h⟩ <;>
    rw [h] <;> rfl

/-- R80, R164: only an `execute_all` that is not refused starts a run. -/
theorem takeCommand_running {c : Command} {s : State} (hr : s.running = false)
    (hc : c = .executeAll → s.faulted = true) : (takeCommand c s).running = false := by
  rcases takeCommand_cases c s with ⟨k, d, h⟩ | ⟨-, h⟩ | ⟨r, m, -, -, -, h⟩ | ⟨w, -, -, -, -, h⟩ | ⟨rfl, hf, -⟩
  · rw [h]; exact hr
  · rw [h]; rfl
  · rw [h]; exact hr
  · rw [h]; exact hr
  · simp [hc rfl] at hf

/-! ### The parameters -/

theorem serveHost_params (s : State) : (serveHost s).params = s.params := by
  rcases serveHost_cases s with h | ⟨c, cs, -, h⟩
  · rw [h]
  · rw [h, takeCommand_params]

/-- Settles O57: a run's end and a host command leave the parameters, and an instruction leaves its whole setting. -/
theorem parametersNeverChange : Obligations.ParametersNeverChange := by
  intro s t h
  rcases step_cases h with ⟨-, -, rfl⟩ | ⟨-, w, i, -, -, hx⟩ | ⟨-, rfl⟩
  · exact endRun_params s
  · exact (exec_sameSetting hx).params
  · exact serveHost_params s

/-! ### Host commands keep the invariant -/

/-- The commands waiting and the responses given play no part in the invariant. -/
theorem State.Inv.withQueues {s : State} (h : s.Inv) (cs : List Command) (rs : List Response) :
    State.Inv { s with inbox := cs, outbox := rs } :=
  h.ofSameData rfl rfl rfl rfl rfl ⟨h.record.clear, h.record.kind, h.record.index, h.record.ended⟩ h.cursor

theorem State.Inv.respond {s : State} (h : s.Inv) (k : ResponseCode) (d : ResponseData) : (State.respond k d s).Inv :=
  h.withQueues s.inbox _

/-- R200: the reset state of legal parameters meets the invariant. -/
theorem resetWith_inv {p : Params} (hp : p.legal = true) : (State.resetWith p).Inv where
  params := hp
  regsCount := List.length_replicate
  lanesCount _ hv := List.eq_of_mem_replicate hv ▸ List.length_replicate
  masksCount := List.length_replicate
  bitsCount _ hm := List.eq_of_mem_replicate hm ▸ List.length_replicate
  memCanonical := rfl
  memInside _ hc := absurd hc List.not_mem_nil
  progFits := Nat.zero_le _
  progWellFormed _ hw := absurd hw List.not_mem_nil
  record := ⟨fun _ => ⟨rfl, rfl⟩, nofun, nofun, nofun⟩
  cursor := nofun

theorem length_fitMask (n : Nat) (m : List Bool) : (fitMask n m).length = n := by
  simp [fitMask]

/-- R23, R162: a mask of `L` bits put in place of another keeps the shape of the masks. -/
theorem State.Inv.setMask {s : State} (h : s.Inv) (r : Nat) (m : List Bool) :
    State.Inv { s with masks := s.masks.set r (fitMask s.params.numLanes m) } where
  params := h.params
  regsCount := h.regsCount
  lanesCount := h.lanesCount
  masksCount := by simp [h.masksCount]
  bitsCount k hk := by
    rcases List.mem_or_eq_of_mem_set hk with hk | rfl
    · exact h.bitsCount k hk
    · exact length_fitMask _ m
  memCanonical := h.memCanonical
  memInside := h.memInside
  progFits := h.progFits
  progWellFormed := h.progWellFormed
  record := ⟨h.record.clear, h.record.kind, h.record.index, h.record.ended⟩
  cursor := h.cursor

/-- R26, R163: a well-formed word appended below PROG_CAP; the fault record's index stays below the longer PLEN. -/
theorem State.Inv.appendWord {s : State} (h : s.Inv) {w : IWord} (hw : wordWellFormed w = true)
    (hcap : s.plen ≠ s.params.progCap) : State.Inv { s with prog := s.prog ++ [w] } := by
  have hlen : State.plen { s with prog := s.prog ++ [w] } = s.plen + 1 := List.length_append
  exact {
    params := h.params
    regsCount := h.regsCount
    lanesCount := h.lanesCount
    masksCount := h.masksCount
    bitsCount := h.bitsCount
    memCanonical := h.memCanonical
    memInside := h.memInside
    progFits := by rw [hlen]; exact Nat.lt_of_le_of_ne h.progFits hcap
    progWellFormed := by
      intro v hv
      rcases List.mem_append.mp hv with hv | hv
      · exact h.progWellFormed v hv
      · exact List.eq_of_mem_singleton hv ▸ hw
    record := ⟨h.record.clear, h.record.kind,
      fun hf => by rw [hlen]; exact Nat.lt_succ_of_lt (h.record.index hf), h.record.ended⟩
    cursor := fun hr => by rw [hlen]; exact Nat.le_succ_of_le (h.cursor hr) }

/-- R80, R164: a run that starts from an unfaulted state starts at the first word. -/
theorem State.Inv.startRun {s : State} (h : s.Inv) (hf : s.faulted = false) :
    State.Inv { s with pc := 0#32, running := true } := by
  refine h.ofSameData rfl rfl rfl rfl rfl ?_ fun _ => Nat.zero_le _
  exact ⟨h.record.clear, h.record.kind, h.record.index, fun ht => absurd ht (by simp [hf])⟩

theorem takeCommand_inv (c : Command) {s : State} (h : s.Inv) : (takeCommand c s).Inv := by
  rcases takeCommand_cases c s with
    ⟨k, d, e⟩ | ⟨-, e⟩ | ⟨r, m, -, -, -, e⟩ | ⟨w, -, -, hw, hcap, e⟩ | ⟨-, hf, e⟩ <;> rw [e]
  · exact h.respond k d
  · exact ((resetWith_inv h.params).withQueues s.inbox s.outbox).respond .ok .none
  · exact (h.setMask (uint r) m).respond .ok .none
  · exact (h.appendWord hw hcap).respond .ok .none
  · exact h.startRun hf

theorem serveHost_inv {s : State} (h : s.Inv) : (serveHost s).Inv := by
  rcases serveHost_cases s with e | ⟨c, cs, -, e⟩ <;> rw [e]
  · exact h
  · exact takeCommand_inv c (h.withQueues cs s.outbox)

/-! ### A run keeps the invariant -/

theorem endRun_inv {s : State} (h : s.Inv) : (endRun s).Inv := by
  refine h.ofSameData rfl rfl rfl rfl rfl ?_ nofun
  exact ⟨h.record.clear, h.record.kind, h.record.index, fun _ => ⟨rfl, rfl⟩⟩

/-- R28, R33: PLEN fits 32 bits, so the cursor moves on from a word of the program without wrapping. -/
theorem State.Inv.uint_next_pc {s : State} (h : s.Inv) (hpc : uint s.pc < s.plen) :
    uint (s.pc + 1#32) = uint s.pc + 1 := by
  obtain ⟨-, -, -, -, -, -, hcap⟩ := h.bounds
  have hfit := h.progFits
  exact BitVec.toNat_add_of_lt (by change uint s.pc + 1 < 2 ^ 32; omega)

/-- R182: the record a fault writes at a word of the program is a right one. -/
theorem State.afterFault_recordOk {s : State} (hpc : uint s.pc < s.plen) (f : FaultKind) :
    (s.afterFault f.code f.response).RecordOk :=
  ⟨nofun, fun _ => f.code_range, fun _ => hpc, fun _ => ⟨rfl, rfl⟩⟩

/-- An instruction of the program keeps the invariant, whether it completes or faults. -/
theorem exec_inv {i : Instr} {s t : State} (h : s.Inv) (hpc : uint s.pc < s.plen) (hx : exec i s = .next t) :
    t.Inv := by
  have hset := exec_sameSetting hx
  have hdata := exec_keeps_dataOk hx h.dataOk
  have hplen : t.plen = s.plen := congrArg List.length hset.prog
  have hcontrol : t.RecordOk ∧ (t.running = true → uint t.pc ≤ t.plen) := by
    rw [hplen]
    rcases exec_control hx with e | ⟨f, e⟩
    · have hr := h.record
      rw [e]
      exact ⟨⟨hr.clear, hr.kind, hr.index, hr.ended⟩, fun _ => (h.uint_next_pc hpc).le.trans hpc⟩
    · have hr := State.afterFault_recordOk hpc f
      rw [e]
      exact ⟨⟨hr.clear, hr.kind, hr.index, hr.ended⟩, nofun⟩
  obtain ⟨hrec, hcursor⟩ := hcontrol
  exact {
    params := hset.params ▸ h.params
    regsCount := hdata.shaped.count
    lanesCount := hdata.shaped.lanes
    masksCount := by rw [hset.masks, hset.params]; exact h.masksCount
    bitsCount := by rw [hset.masks, hset.params]; exact h.bitsCount
    memCanonical := hdata.canonical
    memInside := hdata.inside
    progFits := by rw [hplen, hset.params]; exact h.progFits
    progWellFormed := hset.prog ▸ h.progWellFormed
    record := hrec
    cursor := hcursor }

/-- Settles O40: the three things a step can do each keep the invariant. -/
theorem everyStepKeepsTheInvariant : Obligations.EveryStepKeepsTheInvariant := by
  intro s t h hstep
  rcases step_cases hstep with ⟨-, -, rfl⟩ | ⟨-, w, i, hf, -, hx⟩ | ⟨-, rfl⟩
  · exact endRun_inv h
  · exact exec_inv h (fetch_lt hf) hx
  · exact serveHost_inv h

/-! ### The steps of a run and the loop of the transaction -/

/-- R80, R182: an instruction of a run moves the cursor on with the run still under way, or faults and ends it. -/
theorem exec_run_cases {i : Instr} {s t : State} (hr : s.running = true) (hf : s.faulted = false)
    (hx : exec i s = .next t) :
    (t.faulted = false ∧ t.running = true ∧ t.pc = s.pc + 1#32) ∨ (t.faulted = true ∧ t.running = false) := by
  rcases exec_control hx with e | ⟨f, e⟩ <;> rw [e]
  · exact .inl ⟨hf, hr, rfl⟩
  · exact .inr ⟨rfl, rfl⟩

theorem runWords_cons {w : IWord} {ws : List IWord} {s t : State} {i : Instr} (hd : decode w = .ok i)
    (hx : exec i s = .next t) : runWords (w :: ws) s = if t.faulted then .next t else runWords ws t := by
  simp only [runWords, hd, hx]

/-- The words still to run are the program from the cursor on: the first is the one fetched. -/
theorem fetch_of_drop_eq_cons {s : State} {w : IWord} {ws : List IWord} (h : s.prog.drop (uint s.pc) = w :: ws) :
    fetch s = some w := by
  rw [fetch, ← List.head?_drop, h, List.head?_cons]

/-- R80: from a run under way with the words `ws` still to run, one step a word and one for the run's end lead where the
loop over `ws` leads. -/
theorem run_reaches_runWords {ws : List IWord} {s : State} (h : s.Inv) (hr : s.running = true)
    (hws : s.prog.drop (uint s.pc) = ws) :
    ∃ n t, n ≤ ws.length + 1 ∧ Reaches n s t ∧ runWords ws s = .next t ∧ t.running = false ∧ t.inbox = s.inbox := by
  induction ws generalizing s with
  | nil =>
    have hend : step s = .next (endRun s) :=
      step_of_fetch_none hr (fetch_eq_none.mpr (List.drop_eq_nil_iff.mp hws))
    exact ⟨1, endRun s, by simp, reaches_succ.mpr ⟨_, hend, reaches_zero.mpr rfl⟩, rfl, rfl, rfl⟩
  | cons w ws ih =>
    have hfetch := fetch_of_drop_eq_cons hws
    obtain ⟨i, hd⟩ := (decode_isOk_iff w).mpr (h.progWellFormed w (fetch_mem hfetch))
    obtain ⟨t, hx⟩ := exec_answers_next i s
    have hstep : step s = .next t := (step_of_fetch_some hr hfetch hd).trans hx
    have hset := exec_sameSetting hx
    rcases exec_run_cases hr (h.not_faulted hr) hx with ⟨hf, hrun, hpc⟩ | ⟨hf, hrun⟩
    · have hpc' : uint t.pc = uint s.pc + 1 := hpc ▸ h.uint_next_pc (fetch_lt hfetch)
      have hrest : t.prog.drop (uint t.pc) = ws := by
        rw [hset.prog, hpc', ← List.drop_drop, hws, List.drop_one, List.tail_cons]
      obtain ⟨n, u, hn, hreach, hwords, hstop, hbox⟩ := ih (exec_inv h (fetch_lt hfetch) hx) hrun hrest
      exact ⟨n + 1, u, Nat.succ_le_succ hn, reaches_succ.mpr ⟨t, hstep, hreach⟩,
        by rw [runWords_cons hd hx, hf]; exact hwords, hstop, hbox.trans hset.inbox⟩
    · exact ⟨1, t, by simp, reaches_succ.mpr ⟨t, hstep, reaches_zero.mpr rfl⟩,
        by rw [runWords_cons hd hx, hf]; rfl, hrun, hset.inbox⟩

/-! ### The transaction -/

theorem transact_eq_takeCommand {c : Command} {s : State} (hc : c = .executeAll → s.faulted = true) :
    transact c s = .next (takeCommand c s) := by
  cases c with
  | executeAll => simp [transact, executeAllAtomic, takeCommand, hc rfl]
  | _ => rfl

theorem transact_executeAll {s : State} (hf : s.faulted = false) :
    transact .executeAll s = runWords s.prog { s with pc := 0#32, running := true } := by
  simp [transact, executeAllAtomic, cmdExecuteAll, hf]

/-- R3: once a command is taken, the steps of the run it started, if any, lead where the whole transaction leads. -/
theorem takeCommand_reaches_transact (c : Command) {s : State} (h : s.Inv) (hr : s.running = false) :
    ∃ n t, n ≤ s.plen + 1 ∧ Reaches n (takeCommand c s) t ∧ transact c s = .next t ∧
      t.running = false ∧ t.inbox = s.inbox := by
  by_cases hc : c = .executeAll → s.faulted = true
  · exact ⟨0, takeCommand c s, Nat.zero_le _, reaches_zero.mpr rfl, transact_eq_takeCommand hc,
      takeCommand_running hr hc, takeCommand_inbox c s⟩
  · obtain ⟨rfl, hf⟩ : c = .executeAll ∧ s.faulted = false := by simpa using hc
    rw [takeCommand_executeAll hf, transact_executeAll hf]
    exact run_reaches_runWords (h.startRun hf) rfl rfl

/-- Settles O42: one step takes the command, and the steps of the run it may start do the rest. -/
theorem stepsRefineTheAtomicTransaction : Obligations.StepsRefineTheAtomicTransaction := by
  intro s c cs h hr hb
  obtain ⟨n, t, hn, hreach, htransact⟩ := takeCommand_reaches_transact c (h.withQueues cs s.outbox) hr
  exact ⟨n + 1, t, Nat.succ_le_succ hn, reaches_succ.mpr ⟨_, step_of_command hr hb, hreach⟩, htransact⟩

end Sys2Proof.Machine

/-! ## The state over an instruction and over a step

What an instruction leaves alone (spec/10_state.md R22 to R26), which step may change a mask, the program store or
EXECUTED (R25, R26, R30), and the status words `read_status` returns (R33). -/

namespace Sys2Proof.Machine

/-! ### The frame of an instruction -/

/-- A property of the state that every listed lane operation keeps at an active lane, the loop over the list keeps. -/
theorem laneLoop_induction {d : Nat} {op : Nat → State → Except FaultKind State} (P : State → Prop) {xs : List Nat}
    (hop : ∀ l ∈ xs, ∀ u v, u.maskBit d l = true → op l u = .ok v → P u → P v) {s : State} (hs : P s) :
    P (laneLoop d op xs s).state := by
  induction xs generalizing s with
  | nil => exact hs
  | cons l xs ih =>
    have hrest := fun k hk => hop k (List.mem_cons_of_mem l hk)
    simp only [laneLoop]
    split
    · rename_i hm
      split
      · rename_i v hv
        exact ih hrest (hop l List.mem_cons_self s v hm hv hs)
      · exact hs
    · exact ih hrest hs

/-- A property that the lane operation of `i` keeps at every active lane, and that moving on and fault entry keep, the
whole instruction keeps. -/
theorem exec_induction {i : Instr} {s t : State} (P : State → Prop)
    (hop : ∀ l, l < s.params.numLanes → ∀ u v, u.maskBit (uint i.dst) l = true → laneOp i l u = .ok v → P u → P v)
    (hadvance : ∀ u, P u → P u.advance) (hfault : ∀ f u, P u → P (takeFault f u))
    (hx : exec i s = .next t) (hs : P s) : P t := by
  have hloop := laneLoop_induction P (fun l hl => hop l (List.mem_range.mp hl)) hs
  rcases exec_cases hx with ⟨-, rfl⟩ | ⟨-, u, rfl, hu⟩ | ⟨-, f, u, rfl, hu⟩
  · exact hfault _ _ hs
  · rw [hu] at hloop; exact hadvance u hloop
  · rw [hu] at hloop; exact hfault f u hloop

theorem laneOp_lane_other {i : Instr} {j : Nat} {s t : State} (h : laneOp i j s = .ok t) {r l : Nat}
    (hn : ¬(r = uint i.dst ∧ l = j)) : t.lane r l = s.lane r l := by
  rcases laneOp_cases h with ⟨v, rfl, -⟩ | ⟨ty, d, a, b, -, -, rfl⟩
  · exact lane_setLane_other s v hn
  · exact lane_memWrite s _ _ r l

/-- R121: no lane operation but that of STORE, opcode 6, writes memory. -/
theorem laneOp_mem {i : Instr} {j : Nat} {s t : State} (hi : opcodeOf i ≠ 6) (h : laneOp i j s = .ok t) :
    t.mem = s.mem := by
  rcases laneOp_cases h with ⟨v, rfl, -⟩ | ⟨ty, d, a, b, rfl, -, -⟩
  · exact setLane_mem s _ _ v
  · exact absurd rfl hi

/-- R121, R140, R141: STORE writes no register, and the opcodes above it have no lane operation that completes. -/
theorem laneOp_regs {i : Instr} {j : Nat} {s t : State} (hi : 6 ≤ (opcodeOf i).toNat) (h : laneOp i j s = .ok t) :
    t.regs = s.regs := by
  cases i with
  | mov | add | sub | mul | div | load => simp [opcodeOf] at hi
  | store ty d a b =>
    rcases laneOp_cases h with ⟨v, -, hne⟩ | ⟨ty', d', a', b', -, -, rfl⟩
    · exact absurd rfl (hne ty d a b)
    · exact memWrite_regs s _ _
  | _ => simp [laneOp, unsupportedLane] at h

/-- R22, R24: a lane of a register that is not an active lane of the destination keeps its value. -/
theorem exec_lane_other {i : Instr} {s t : State} (hx : exec i s = .next t) {r l : Nat}
    (hn : ¬(r = uint i.dst ∧ s.active i.dst l)) : t.lane r l = s.lane r l := by
  suffices h : t.masks = s.masks ∧ t.lane r l = s.lane r l from h.2
  refine exec_induction (fun u => u.masks = s.masks ∧ u.lane r l = s.lane r l) ?_ (fun _ => id) (fun _ _ => id) hx
    ⟨rfl, rfl⟩
  rintro j hj u v hm hv ⟨hmasks, hlane⟩
  refine ⟨(laneOp_sameControl hv).setting.masks.trans hmasks, (laneOp_lane_other hv ?_).trans hlane⟩
  rintro ⟨hr, rfl⟩
  exact hn ⟨hr, hj, maskBit_of_masks_eq hmasks _ _ ▸ hm⟩

theorem exec_mem_of_not_store {i : Instr} {s t : State} (hi : opcodeOf i ≠ 6) (hx : exec i s = .next t) :
    t.mem = s.mem :=
  exec_induction (fun u => u.mem = s.mem) (fun _ _ _ _ _ hv hu => (laneOp_mem hi hv).trans hu) (fun _ => id)
    (fun _ _ => id) hx rfl

theorem exec_regs_of_store_or_above {i : Instr} {s t : State} (hi : 6 ≤ (opcodeOf i).toNat)
    (hx : exec i s = .next t) : t.regs = s.regs :=
  exec_induction (fun u => u.regs = s.regs) (fun _ _ _ _ _ hv hu => (laneOp_regs hi hv).trans hu) (fun _ => id)
    (fun _ _ => id) hx rfl

/-- Settles O25: what the lane operations leave alone, the instruction leaves alone, completing or faulting. -/
theorem instructionFrame : Obligations.InstructionFrame := by
  intro i s t hx
  have hset := exec_sameSetting hx
  exact ⟨fun r l hn => exec_lane_other hx hn, hset.masks, hset.prog, hset.params, hset.inbox,
    fun hi k => by rw [exec_mem_of_not_store hi hx], fun hi => exec_regs_of_store_or_above hi hx⟩

/-! ### The status words -/

/-- R33: STATUS bit 0 is EXECUTED, bit 1 FAULTED, bits 4:2 FAULT_KIND, bits 31:5 zero. -/
theorem statusWord_fields (s : State) :
    s.statusWord.getLsbD 0 = s.executed ∧ s.statusWord.getLsbD 1 = s.faulted ∧
      s.statusWord.extractLsb' 2 3 = s.faultKind ∧ s.statusWord.extractLsb' 5 27 = 0#27 := by
  simp (disch := decide) only [State.statusWord, BitVec.extractLsb'_append_eq_of_le,
    BitVec.extractLsb'_append_eq_of_add_le, BitVec.getLsbD_append]
  simp

/-- R33: PLEN fits the 32 bits of PROG_LEN. -/
theorem State.Inv.uint_progLenWord {s : State} (h : s.Inv) : uint s.progLenWord = s.plen := by
  obtain ⟨-, -, -, -, -, -, hcap⟩ := h.bounds
  have hfit := h.progFits
  exact (BitVec.toNat_ofNat _ _).trans (Nat.mod_eq_of_lt (by omega))

theorem State.Inv.faultKind_le {s : State} (h : s.Inv) : s.faultKind.toNat ≤ 4 := by
  cases hf : s.faulted with
  | false => rw [(h.record.clear hf).1]; decide
  | true => exact (h.record.kind hf).2

/-- Settles O51: the words are `statusWord`, FAULT_INDEX and `progLenWord`; their legal values are the invariant's. -/
theorem readStatusLayout : Obligations.ReadStatusLayout := by
  intro s h
  obtain ⟨hexecuted, hfaulted, hkind, hzero⟩ := statusWord_fields s
  refine ⟨s.statusWord, s.faultIndex, s.progLenWord, rfl, hexecuted, hfaulted, hkind, hzero, rfl,
    h.uint_progLenWord, fun hf => (h.record.clear hf).symm, fun hf => ?_, h.faultKind_le, ?_⟩
  · rw [h.uint_progLenWord]; exact h.record.index hf
  · rw [h.uint_progLenWord]; exact h.progFits

/-! ### Masks and program over a step -/

/-- R25, R26: a step that takes no command leaves the masks and the program store as they are. -/
theorem step_keeps_or_takes_command {s t : State} (h : step s = .next t) :
    (t.masks = s.masks ∧ t.prog = s.prog) ∨
    (s.running = false ∧ ∃ c cs, s.inbox = c :: cs ∧ t = takeCommand c { s with inbox := cs }) := by
  rcases step_cases h with ⟨-, -, rfl⟩ | ⟨-, w, i, -, -, hx⟩ | ⟨hr, rfl⟩
  · exact .inl ⟨rfl, rfl⟩
  · exact .inl ⟨(exec_sameSetting hx).masks, (exec_sameSetting hx).prog⟩
  · rcases serveHost_cases s with e | ⟨c, cs, hb, e⟩
    · exact .inl ⟨by rw [e], by rw [e]⟩
    · exact .inr ⟨hr, c, cs, hb, e⟩

/-- R161, R162: the commands that can change the mask of register `q`. -/
theorem takeCommand_mask_changed {c : Command} {s : State} {q : Nat}
    (h : (takeCommand c s).masks[q]? ≠ s.masks[q]?) :
    c = .reset ∨ ∃ r m, c = .installMask r m ∧ uint r = q := by
  rcases takeCommand_cases c s with ⟨k, d, e⟩ | ⟨rfl, -⟩ | ⟨r, m, rfl, -, -, e⟩ | ⟨w, -, -, -, -, e⟩ | ⟨-, -, e⟩
  · exact absurd (by rw [e]; rfl) h
  · exact .inl rfl
  · refine .inr ⟨r, m, rfl, ?_⟩
    by_contra hne
    exact h (by rw [e]; exact List.getElem?_set_ne hne)
  · exact absurd (by rw [e]; rfl) h
  · exact absurd (by rw [e]) h

/-- Settles O53: a step that changes a mask takes a command, and that command is one of two. -/
theorem masksChangeOnlyByInstallMask : Obligations.MasksChangeOnlyByInstallMask := by
  intro s t q h hq
  rcases step_keeps_or_takes_command h with ⟨hmasks, -⟩ | ⟨hr, c, cs, hb, rfl⟩
  · exact absurd (by rw [hmasks]) hq
  · exact ⟨hr, c, cs, hb, takeCommand_mask_changed hq⟩

/-- R161, R163: what a command does to the program store. -/
theorem takeCommand_prog_cases (c : Command) (s : State) :
    (takeCommand c s).prog = s.prog ∨
    (∃ w, c = .append w ∧ wordWellFormed w = true ∧ s.plen ≠ s.params.progCap ∧
      (takeCommand c s).prog = s.prog ++ [w]) ∨
    (c = .reset ∧ (takeCommand c s).prog = []) := by
  rcases takeCommand_cases c s with ⟨k, d, e⟩ | ⟨rfl, -⟩ | ⟨r, m, -, -, -, e⟩ | ⟨w, rfl, -, hw, hcap, e⟩ | ⟨-, -, e⟩
  · exact .inl (by rw [e]; rfl)
  · exact .inr (.inr ⟨rfl, rfl⟩)
  · exact .inl (by rw [e]; rfl)
  · exact .inr (.inl ⟨w, rfl, hw, hcap, by rw [e]; rfl⟩)
  · exact .inl (by rw [e])

/-- Settles O54: a step that takes no command keeps the program, and a command keeps it, appends to it or resets it. -/
theorem programIsAppendOnly : Obligations.ProgramIsAppendOnly := by
  intro s t hinv h
  rcases step_keeps_or_takes_command h with ⟨-, hprog⟩ | ⟨-, c, cs, hb, rfl⟩
  · exact .inl hprog
  · rcases takeCommand_prog_cases c { s with inbox := cs } with hprog | ⟨w, rfl, hw, hcap, hprog⟩ | ⟨rfl, hprog⟩
    · exact .inl hprog
    · exact .inr (.inl ⟨w, cs, hb, hw, Nat.lt_of_le_of_ne hinv.progFits hcap, hprog⟩)
    · exact .inr (.inr ⟨cs, hb, hprog⟩)

/-! ### EXECUTED over a step -/

/-- R80, R182: an instruction leaves the run and EXECUTED as they are, or faults, ends the run and sets EXECUTED. -/
theorem exec_executed_cases {i : Instr} {s t : State} (hx : exec i s = .next t) :
    (t.running = s.running ∧ t.executed = s.executed) ∨ (t.running = false ∧ t.executed = true) := by
  rcases exec_control hx with e | ⟨f, e⟩ <;> rw [e]
  · exact .inl ⟨rfl, rfl⟩
  · exact .inr ⟨rfl, rfl⟩

/-- R161: a command other than `reset` leaves EXECUTED as it is. -/
theorem takeCommand_executed {c : Command} (hc : c ≠ .reset) (s : State) :
    (takeCommand c s).executed = s.executed := by
  rcases takeCommand_cases c s with ⟨k, d, e⟩ | ⟨hreset, -⟩ | ⟨r, m, -, -, -, e⟩ | ⟨w, -, -, -, -, e⟩ | ⟨-, -, e⟩
  · rw [e]; rfl
  · exact absurd hreset hc
  · rw [e]; rfl
  · rw [e]; rfl
  · rw [e]

/-- R161, R195: between runs EXECUTED stays as it is, but for a `reset`, which clears it. -/
theorem serveHost_executed_cases (s : State) :
    (serveHost s).executed = s.executed ∨ ((∃ cs, s.inbox = .reset :: cs) ∧ (serveHost s).executed = false) := by
  rcases serveHost_cases s with e | ⟨c, cs, hb, e⟩ <;> rw [e]
  · exact .inl rfl
  · by_cases hc : c = .reset
    · subst hc
      exact .inr ⟨⟨cs, hb⟩, rfl⟩
    · exact .inl (takeCommand_executed hc _)

/-- Settles O56: the end of a run and fault entry set EXECUTED, every other step but a `reset` keeps it. -/
theorem executedRecordsThatARunEnded : Obligations.ExecutedRecordsThatARunEnded := by
  intro s t h
  rcases step_cases h with ⟨hr, -, rfl⟩ | ⟨hr, w, i, -, -, hx⟩ | ⟨hr, rfl⟩
  · exact ⟨fun _ _ => rfl, fun _ => nofun, fun _ _ => ⟨hr, rfl⟩⟩
  · rcases exec_executed_cases hx with ⟨hrun, hexec⟩ | ⟨hrun, hexec⟩
    · simp [hr, hrun, hexec]
    · simp [hr, hrun, hexec]
  · rcases serveHost_executed_cases s with hexec | ⟨hreset, hexec⟩
    · simp +contextual [hr, hexec]
    · simp [hr, hexec, hreset]

end Sys2Proof.Machine

/-! ## Memory

What a write of one byte changes (spec/20_memory.md R42), which bytes a STORE can change (R42, R87), which host commands
leave memory and the registers alone (R22, R57), and the address check (R43). -/

namespace Sys2Proof.Machine

/-! ### One byte -/

/-- R43: distinct addresses in range name distinct bytes. -/
theorem eq_of_inRange_of_sint_toNat_eq {s : State} {a b : Word} (ha : s.inRange a = true) (hb : s.inRange b = true)
    (h : (sint b).toNat = (sint a).toNat) : b = a := by
  obtain ⟨ha0, -⟩ := (inRange_iff s a).mp ha
  obtain ⟨hb0, -⟩ := (inRange_iff s b).mp hb
  have hsint : sint b = sint a := by omega
  exact BitVec.eq_of_toInt_eq hsint

/-- Settles O32: an address in range names its own byte, and a write to a canonical memory changes that byte alone. -/
theorem memoryReadsWhatWasWritten : Obligations.MemoryReadsWhatWasWritten := by
  intro s a v hinv ha
  refine ⟨?_, fun b hb hne => ?_, rfl, Memory.wf_write _ _ hinv.memCanonical⟩
  · exact (Memory.read_write _ _ hinv.memCanonical _).trans (if_pos rfl)
  · exact (Memory.read_write _ _ hinv.memCanonical _).trans
      (if_neg fun h => hne (eq_of_inRange_of_sint_toNat_eq ha hb h))

/-! ### The frame of a STORE -/

theorem laneOp_store_ok {ty : DType} {d : Word} {a b : Src} {l : Nat} {s t : State}
    (h : laneOp (.store ty d a b) l s = .ok t) :
    t = s.memWrite (effectiveAddress a l s) (s.lane (uint d) l) := by
  rcases laneOp_cases h with ⟨v, -, hne⟩ | ⟨ty', d', a', b', hi, -, ht⟩
  · exact absurd rfl (hne ty d a b)
  · cases hi; exact ht

/-- What the lanes of a STORE leave alone in `s`, besides the control fields: the masks, so the same lanes stay active;
the registers, so the addresses stay the same (R88); the canonical form of memory, and its byte at `k`. -/
structure StoreKeeps (k : Nat) (s t : State) : Prop where
  masks : t.masks = s.masks
  regs : t.regs = s.regs
  canonical : Memory.wf t.mem = true
  byte : Memory.read t.mem k = Memory.read s.mem k

theorem StoreKeeps.effectiveAddress_eq {k : Nat} {s t : State} (h : StoreKeeps k s t) (a : Src) (l : Nat) :
    effectiveAddress a l t = effectiveAddress a l s := by
  cases a with
  | imm v => rfl
  | reg f => exact lane_of_regs_eq h.regs _ _

/-- R42: a store to another byte keeps the byte at `k`. -/
theorem StoreKeeps.memWrite {k : Nat} {s t : State} (h : StoreKeeps k s t) {a : Word} (v : Word)
    (ha : (sint a).toNat ≠ k) : StoreKeeps k s (t.memWrite a v) where
  masks := h.masks
  regs := h.regs
  canonical := Memory.wf_write _ _ h.canonical
  byte := (Memory.read_write _ _ h.canonical k).trans ((if_neg ha.symm).trans h.byte)

/-- Settles O26: each active lane stores at the address it had before the instruction, which is not `k`. -/
theorem storeFrame : Obligations.StoreFrame := by
  intro s t ty d a b hinv hx k hk
  suffices h : StoreKeeps k s t from h.byte
  refine exec_induction (StoreKeeps k s) ?_ (fun _ hu => ⟨hu.masks, hu.regs, hu.canonical, hu.byte⟩)
    (fun _ _ hu => ⟨hu.masks, hu.regs, hu.canonical, hu.byte⟩) hx ⟨rfl, rfl, hinv.memCanonical, rfl⟩
  intro l hl u v hm hv hu
  have hactive : s.active d l := ⟨hl, maskBit_of_masks_eq hu.masks _ _ ▸ hm⟩
  rw [laneOp_store_ok hv]
  exact hu.memWrite _ (hu.effectiveAddress_eq a l ▸ hk l hactive)

/-! ### Host commands and the data state -/

/-- R22, R57: of the host commands only `reset` changes memory or a register. -/
theorem takeCommand_mem_regs {c : Command} (hc : c ≠ .reset) (s : State) :
    (takeCommand c s).mem = s.mem ∧ (takeCommand c s).regs = s.regs := by
  rcases takeCommand_cases c s with ⟨k, d, e⟩ | ⟨hreset, -⟩ | ⟨r, m, -, -, -, e⟩ | ⟨w, -, -, -, -, e⟩ | ⟨-, -, e⟩
  · rw [e]; exact ⟨rfl, rfl⟩
  · exact absurd hreset hc
  · rw [e]; exact ⟨rfl, rfl⟩
  · rw [e]; exact ⟨rfl, rfl⟩
  · rw [e]; exact ⟨rfl, rfl⟩

/-- Settles O55: a step between runs is idle or takes one command, which is not a `reset`. -/
theorem hostNeverWritesMemoryOrRegisters : Obligations.HostNeverWritesMemoryOrRegisters := by
  intro s t hr hreset h
  rcases step_cases h with ⟨hrun, -, -⟩ | ⟨hrun, -⟩ | ⟨-, rfl⟩
  · simp [hr] at hrun
  · simp [hr] at hrun
  · rcases serveHost_cases s with e | ⟨c, cs, hb, e⟩ <;> rw [e]
    · exact ⟨rfl, rfl⟩
    · exact takeCommand_mem_regs (fun hc => hreset cs (hc ▸ hb)) { s with inbox := cs }

/-! ### The address check -/

/-- R7: the bounds of `M`. -/
theorem memBytes_bounds_of_legal {p : Params} (h : p.legal = true) : 1 ≤ p.memBytes ∧ p.memBytes ≤ 2 ^ 31 := by
  simp only [Params.legal, Bool.and_eq_true, decide_eq_true_eq] at h
  omega

/-- R43: as `M` is at most `2^31`, the signed check is an unsigned comparison. -/
theorem inRange_iff_uint_lt {s : State} (hM : s.params.memBytes ≤ 2 ^ 31) (a : Word) :
    s.inRange a = true ↔ uint a < s.params.memBytes := by
  have hlt := a.isLt
  rw [inRange_iff, sint, uint, BitVec.toInt_eq_toNat_cond]
  split <;> omega

theorem inRange_eq_false_iff {s : State} (hM : s.params.memBytes ≤ 2 ^ 31) (a : Word) :
    s.inRange a = false ↔ s.params.memBytes ≤ uint a := by
  rw [← Bool.not_eq_true, inRange_iff_uint_lt hM, Nat.not_lt]

theorem uint_ofNat {n : Nat} (h : n < 2 ^ 32) : uint (BitVec.ofNat 32 n) = n :=
  (BitVec.toNat_ofNat n 32).trans (Nat.mod_eq_of_lt h)

/-- Settles O33: for legal `M` the check compares unsigned values, and each corner is one such comparison. -/
theorem addressCheck : Obligations.AddressCheck := by
  intro s hlegal
  obtain ⟨hpos, hM⟩ := memBytes_bounds_of_legal hlegal
  refine ⟨inRange_iff s, fun a ha => ?_, ?_, ?_, ?_, ?_⟩
  · exact (inRange_eq_false_iff hM a).mpr (hM.trans (Nat.ge_two_pow_of_testBit ha))
  · exact (inRange_eq_false_iff hM _).mpr (hM.trans (by decide))
  · exact (inRange_eq_false_iff hM _).mpr (uint_ofNat (by omega)).ge
  · exact (inRange_iff_uint_lt hM _).mpr hpos
  · rw [inRange_iff_uint_lt hM, uint_ofNat (by omega)]
    omega

end Sys2Proof.Machine

/-! ## The instruction word and the listing

Which instruction a word stands for and which word an instruction has (spec/30_encoding.md R61 to R71), what a listing
line assembles to (R73, R74), and what decoding means for a step (R66, R67). -/

namespace Sys2Proof

/-! ### Encoding -/

/-- R61: the fields of an instruction's word. -/
theorem fieldsOf_encode (i : Instr) :
    fieldsOf (encode i) = ⟨opcodeOf i, dtypeCode i.dtype, srcFlag i.src1, srcFlag i.src2, 0#22, i.dst, srcField i.src1,
      srcField i.src2⟩ :=
  fieldsOf_wordOf _

/-- Settles O1: each field of the word gives back the part of the instruction it was made from. -/
theorem decodeOfEncode : Obligations.DecodeOfEncode := by
  intro i
  rw [decode_ok, fieldsOf_encode]
  refine ⟨rfl, i.dtype, dtypeOfCode_dtypeCode i.dtype, ?_⟩
  simp only [srcOf_flag_field, instrOf_opcodeOf]

/-- Settles O2: the parts of the decoded instruction give back each field of the word, and the fields are all of it. -/
theorem encodeOfDecode : Obligations.EncodeOfDecode := by
  intro w i h
  obtain ⟨hrsv, t, ht, rfl⟩ := decode_ok.mp h
  rw [encode, opcodeOf_instrOf, dtype_instrOf, dst_instrOf, src1_instrOf, src2_instrOf, dtypeCode_of_dtypeOfCode ht,
    srcFlag_srcOf, srcFlag_srcOf, srcField_srcOf, srcField_srcOf, ← hrsv]
  exact wordOf_fieldsOf w

/-- Settles O5: the parts of the decoded instruction are the fields of the word. -/
theorem fieldsAreReadFromTheirBits : Obligations.FieldsAreReadFromTheirBits := by
  intro w i h
  obtain ⟨-, t, ht, rfl⟩ := decode_ok.mp h
  rw [dst_instrOf, src1_instrOf, src2_instrOf, dtype_instrOf]
  refine ⟨rfl, rfl, rfl, ?_⟩
  have hcode : w.extractLsb' 4 4 = dtypeCode t := (dtypeCode_of_dtypeOfCode ht).symm
  rw [hcode]
  cases t <;> rfl

/-- Settles O6: each word is run through the decoder. -/
theorem sampleWordsDecode : Obligations.SampleWordsDecode := by
  unfold Obligations.SampleWordsDecode
  decide

/-! ### Match and mask (R71) -/

theorem and_opcMask (x : Word) : x &&& 0xF#32 = (x.extractLsb' 0 4).setWidth 32 := by
  have hmask : ∀ j : Fin 32, (0xF#32).getLsbD j = decide (j.val < 4) := by decide
  refine BitVec.eq_of_getLsbD_eq fun j hj => ?_
  rw [BitVec.getLsbD_and, hmask ⟨j, hj⟩, BitVec.getLsbD_setWidth, BitVec.getLsbD_extractLsb']
  simp [hj, Bool.and_comm]

/-- The mask of R71 is that of R67 and the four bits of OPC. -/
theorem and_matchMask_eq_iff (x : Word) (c : BitVec 4) :
    x &&& 0xFFFFFC8F#32 = c.setWidth 32 ↔ x &&& 0xFFFFFC80#32 = 0#32 ∧ x.extractLsb' 0 4 = c := by
  have hc : c.setWidth 32 &&& 0xFFFFFC80#32 = 0#32 ∧ (c.setWidth 32).extractLsb' 0 4 = c := by revert c; decide
  constructor
  · intro h
    have hrest : x &&& 0xFFFFFC80#32 = (x &&& 0xFFFFFC8F#32) &&& 0xFFFFFC80#32 := by rw [BitVec.and_assoc]; rfl
    have hopc : x.extractLsb' 0 4 = (x &&& 0xFFFFFC8F#32).extractLsb' 0 4 := by
      rw [BitVec.extractLsb'_and]
      exact BitVec.and_allOnes.symm
    rw [hrest, hopc, h]
    exact hc
  · rintro ⟨hrest, rfl⟩
    have hmask : (0xFFFFFC8F#32) = 0xFFFFFC80#32 ||| 0xF#32 := by decide
    rw [hmask, BitVec.and_or_distrib_left, hrest, BitVec.zero_or, and_opcMask]

/-- R70: a well-formed word decodes to the instruction of its opcode. -/
theorem decode_instrOf_iff (w : IWord) (c : BitVec 4) :
    (∃ t d a b, decode w = .ok (instrOf c t d a b)) ↔ wordWellFormed w = true ∧ (fieldsOf w).opc = c := by
  rw [← decode_isOk_iff]
  constructor
  · rintro ⟨t, d, a, b, h⟩
    obtain ⟨-, t', -, hi⟩ := decode_ok.mp h
    refine ⟨⟨_, h⟩, ?_⟩
    have hopc := congrArg opcodeOf hi
    rw [opcodeOf_instrOf, opcodeOf_instrOf] at hopc
    exact hopc.symm
  · rintro ⟨⟨i, h⟩, rfl⟩
    obtain ⟨-, t, -, rfl⟩ := decode_ok.mp h
    exact ⟨_, _, _, _, h⟩

theorem wordWellFormed_iff_and_eq_zero (w : IWord) :
    wordWellFormed w = true ↔ w.extractLsb' 0 32 &&& 0xFFFFFC80#32 = 0#32 :=
  beq_iff_eq

/-- R71, for the row of any opcode. -/
theorem matchMask_iff_decode (w : IWord) (c : BitVec 4) :
    w.extractLsb' 0 32 &&& 0xFFFFFC8F#32 = c.setWidth 32 ↔ ∃ t d a b, decode w = .ok (instrOf c t d a b) := by
  rw [and_matchMask_eq_iff, decode_instrOf_iff, wordWellFormed_iff_and_eq_zero,
    BitVec.extractLsb'_extractLsb'_of_le (by decide)]
  rfl

/-- Settles O4: each row is the rule for its opcode. -/
theorem matchAndMaskPickTheInstruction : Obligations.MatchAndMaskPickTheInstruction := by
  intro w
  have row := matchMask_iff_decode w
  exact ⟨row 0, row 1, row 2, row 3, row 4, row 5, row 6, row 7, row 8, row 9, row 10, row 11, row 12, row 13, row 14,
    row 15⟩

/-! ### Serialised words (R62) -/

theorem getElem?_bytesOfWord (w : IWord) {j : Nat} (hj : j < 16) : (bytesOfWord w)[j]? = some (byteOfWord w j) := by
  simp [bytesOfWord, hj]

/-- R62, R70: bytes that begin with a serialised word decode as the word does, and the bytes after it are left over. -/
theorem decodeBytes_bytesOfWord (w : IWord) (rest : List Byte) :
    decodeBytes (bytesOfWord w ++ rest) = (decode w).map fun i => (i, rest) := by
  simp only [decodeBytes, wordOfBytes_bytesOfWord]
  cases decode w <;> rfl

/-- Settles O7: a serialised word is its bytes in order, and decoding them decodes the word. -/
theorem serialisedWordIsLittleEndian : Obligations.SerialisedWordIsLittleEndian := by
  intro w rest
  rw [decodeBytes_bytesOfWord]
  refine ⟨by simp [bytesOfWord], fun j hj => getElem?_bytesOfWord w hj, fun i h => ?_, fun e h => ?_⟩
  · rw [h]; rfl
  · rw [h]; rfl

end Sys2Proof

namespace Sys2Proof.Machine

/-! ### Refused words (R67) -/

/-- R163: `append` of a word that is not well-formed only responds. -/
theorem takeCommand_append_of_malformed {s : State} {w : IWord} (hf : s.faulted = false)
    (hw : wordWellFormed w = false) : takeCommand (.append w) s = State.respond .malformedRecord .none s := by
  simp [takeCommand, cmdAppend, hf, hw]

/-- Settles O3: the mask test is the test of the two fields, decides whether the word decodes, and guards `append`. -/
theorem wellFormedWordsDecode : Obligations.WellFormedWordsDecode := by
  intro w
  rw [← wordWellFormed_iff_and_eq_zero]
  refine ⟨(wordWellFormed_iff w).symm, (decode_isOk_iff w).symm, fun s hf hw => ?_⟩
  exact takeCommand_append_of_malformed hf (Bool.eq_false_iff.mpr ((wordWellFormed_iff_and_eq_zero w).not.mpr hw))

/-- Settles O41: a run ends or reaches a well-formed word, whose instruction answers; between runs the host is served. -/
theorem noStepStops : Obligations.NoStepStops := by
  intro s hinv
  cases hr : s.running with
  | false => exact ⟨serveHost s, by simp [step, hr]⟩
  | true =>
    cases hf : fetch s with
    | none => exact ⟨endRun s, step_of_fetch_none hr hf⟩
    | some w =>
      obtain ⟨i, hd⟩ := (decode_isOk_iff w).mpr (hinv.progWellFormed w (fetch_mem hf))
      obtain ⟨t, hx⟩ := exec_answers_next i s
      exact ⟨t, (step_of_fetch_some hr hf hd).trans hx⟩

/-! ### The data-type tag (R66) -/

theorem exec_instrOf_dtype (c : BitVec 4) (t u : DType) (d : Word) (a b : Src) (s : State) :
    exec (instrOf c t d a b) s = exec (instrOf c u d a b) s := by
  rcases opcode_cases c with
    rfl | rfl | rfl | rfl | rfl | rfl | rfl | rfl | rfl | rfl | rfl | rfl | rfl | rfl | rfl | rfl <;> rfl

/-- Words that agree outside bits 7:4 have every field but DTYPE in common. -/
theorem fieldsOf_eq_of_agree {w v : IWord} (h : ∀ k, k < 128 → ¬(4 ≤ k ∧ k < 8) → w.getLsbD k = v.getLsbD k) :
    fieldsOf w = { fieldsOf v with dtype := (fieldsOf w).dtype } := by
  have hfield : ∀ start len, start + len ≤ 128 → (start + len ≤ 4 ∨ 8 ≤ start) →
      w.extractLsb' start len = v.extractLsb' start len := by
    intro start len hend hout
    refine BitVec.eq_of_getLsbD_eq fun j hj => ?_
    rw [BitVec.getLsbD_extractLsb', BitVec.getLsbD_extractLsb', h (start + j) (by omega) (by omega)]
  simp only [fieldsOf, Fields.mk.injEq, h 8 (by decide) (by decide), h 9 (by decide) (by decide), true_and]
  exact ⟨hfield 0 4 (by decide) (by decide), hfield 10 22 (by decide) (by decide), hfield 32 32 (by decide) (by decide),
    hfield 64 32 (by decide) (by decide), hfield 96 32 (by decide) (by decide)⟩

/-- Settles O23: the two instructions are built from the same fields but for the tag, which `exec` drops. -/
theorem dataTypeIsInert : Obligations.DataTypeIsInert := by
  intro w v i j hw hv hagree s
  obtain ⟨-, t, -, rfl⟩ := decode_ok.mp hw
  obtain ⟨-, u, -, rfl⟩ := decode_ok.mp hv
  rw [fieldsOf_eq_of_agree hagree]
  exact exec_instrOf_dtype _ t u _ _ _ s

/-! ### Listings (R73, R74) -/

theorem listSrc_wellFormed (x : Src) : (listSrc x).wellFormed = true := by
  cases x with
  | reg f => exact decide_eq_true f.isLt
  | imm v =>
    have hlow := v.le_toInt
    have hhigh := v.toInt_lt
    simp only [listSrc, ListingSrc.wellFormed, sint, Bool.and_eq_true, decide_eq_true_eq]
    omega

/-- R73: the spelling of a source field assembles to that field. -/
theorem assemble_listSrc (x : Src) : (listSrc x).assemble = x := by
  cases x with
  | reg f => exact congrArg Src.reg ((BitVec.ofNat_toNat 32 f).trans (BitVec.setWidth_eq f))
  | imm v => exact congrArg Src.imm BitVec.ofInt_toInt

theorem assembleLine_instr {lanes : Nat} {opc : BitVec 4} {t : Option DType} {d : Nat} {s1 : ListingSrc}
    {s2 : Option ListingSrc} (h : (ListingLine.instr opc t d s1 s2).wellFormed lanes = true) :
    assembleLine lanes (.instr opc t d s1 s2) = some (.append (encode (assembleInstr opc t d s1 s2))) :=
  if_pos h

theorem listInstr_wellFormed (lanes : Nat) (i : Instr) : (listInstr i).wellFormed lanes = true := by
  have hdst : decide (uint i.dst < 2 ^ 32) = true := decide_eq_true i.dst.isLt
  simp only [listInstr, ListingLine.wellFormed, listSrc_wellFormed, hdst, Bool.and_self]

/-- R73: the spelling of an instruction assembles to the append of its word. -/
theorem assembleLine_listInstr (lanes : Nat) (i : Instr) :
    assembleLine lanes (listInstr i) = some (.append (encode i)) := by
  have hinstr : assembleInstr (opcodeOf i) (some i.dtype) (uint i.dst) (listSrc i.src1) (some (listSrc i.src2)) = i := by
    simp [assembleInstr, assemble_listSrc, uint, instrOf_opcodeOf]
  rw [listInstr, assembleLine_instr (listInstr_wellFormed lanes i), hinstr]

/-- Settles O8: a well-formed word decodes, and is the word of the spelling of its instruction. -/
theorem everyWellFormedWordHasASpelling : Obligations.EveryWellFormedWordHasASpelling := by
  intro lanes w hw
  obtain ⟨i, hi⟩ := (decode_isOk_iff w).mpr hw
  exact ⟨listInstr i, encodeOfDecode w i hi ▸ assembleLine_listInstr lanes i⟩

theorem assembleLine_mask {lanes n : Nat} {m : ListingMask} (hn : n < 2 ^ 32) (hm : m.wellFormed lanes = true) :
    assembleLine lanes (.mask n m) = some (.installMask (BitVec.ofNat 32 n) (m.bits lanes)) :=
  if_pos ((Bool.and_eq_true _ _).mpr ⟨decide_eq_true hn, hm⟩)

theorem ListingMask.length_bits (lanes : Nat) (m : ListingMask) : (m.bits lanes).length = lanes := by
  cases m <;> simp [ListingMask.bits]

/-- Settles O9: each form of a MASK line is well-formed and installs its own bits. -/
theorem maskLinesInstallTheirBits : Obligations.MaskLinesInstallTheirBits := by
  intro lanes n h hn
  refine ⟨fun hh => ⟨_, assembleLine_mask hn (decide_eq_true hh), ListingMask.length_bits lanes _, fun i hi => ?_⟩,
    ⟨_, assembleLine_mask hn rfl, ListingMask.length_bits lanes _, fun i hi => ?_⟩,
    ⟨_, assembleLine_mask hn rfl, ListingMask.length_bits lanes _, fun i hi => ?_⟩, rfl⟩
  · simp [ListingMask.bits, hi]
  · simp [ListingMask.bits, hi]
  · simp [ListingMask.bits, hi]

end Sys2Proof.Machine

/-! ## Execution

Which lanes an instruction looks at (spec/40_execution.md R82 to R90), and how a run goes through the program (R80). -/

namespace Sys2Proof.Machine

/-! ### Inactive lanes (R87, R88) -/

/-- Two states that differ at most in the register lanes inactive for an instruction with destination `d`. The shapes
make a lane written in both read back alike. -/
structure AgreeOnActive (d : Word) (s s' : State) : Prop where
  only : s' = { s with regs := s'.regs }
  shaped : s.Shaped
  shaped' : s'.Shaped
  lanes : ∀ r l, s.active d l → s'.lane r l = s.lane r l

section
variable {d : Word} {s s' : State}

theorem AgreeOnActive.params (h : AgreeOnActive d s s') : s'.params = s.params := by rw [h.only]

theorem AgreeOnActive.masks (h : AgreeOnActive d s s') : s'.masks = s.masks := by rw [h.only]

theorem AgreeOnActive.mem (h : AgreeOnActive d s s') : s'.mem = s.mem := by rw [h.only]

theorem AgreeOnActive.maskBit_eq (h : AgreeOnActive d s s') (r l : Nat) : s'.maskBit r l = s.maskBit r l :=
  maskBit_of_masks_eq h.masks r l

theorem AgreeOnActive.operand_eq (h : AgreeOnActive d s s') {l : Nat} (hl : s.active d l) (x : Src) :
    operand x l s' = operand x l s := by
  cases x with
  | imm v => rfl
  | reg f => exact h.lanes _ l hl

theorem AgreeOnActive.inRange_eq (h : AgreeOnActive d s s') (a : Word) : s'.inRange a = s.inRange a := by
  simp only [State.inRange, h.params]

theorem AgreeOnActive.memRead_eq (h : AgreeOnActive d s s') (a : Word) : s'.memRead a = s.memRead a := by
  simp only [State.memRead, h.mem]

/-- The same value written to the same active lane. -/
theorem AgreeOnActive.setLane (h : AgreeOnActive d s s') (hd : uint d < s.params.numRegs) {i : Nat}
    (hi : i < s.params.numLanes) (v : Word) : AgreeOnActive d (s.setLane (uint d) i v) (s'.setLane (uint d) i v) where
  only := by rw [State.setLane, h.only]; rfl
  shaped := Shaped.setLane h.shaped _ i v
  shaped' := Shaped.setLane h.shaped' _ i v
  lanes r l hl := by
    by_cases hw : r = uint d ∧ l = i
    · obtain ⟨rfl, rfl⟩ := hw
      rw [lane_setLane_same h.shaped hd hi, lane_setLane_same h.shaped' (h.params ▸ hd) (h.params ▸ hi)]
    · rw [lane_setLane_other _ _ hw, lane_setLane_other _ _ hw]
      exact h.lanes r l hl

/-- The same byte stored to the same address. -/
theorem AgreeOnActive.memWrite (h : AgreeOnActive d s s') (a v : Word) :
    AgreeOnActive d (s.memWrite a v) (s'.memWrite a v) where
  only := by rw [State.memWrite, h.only]; rfl
  shaped := ⟨h.shaped.count, h.shaped.lanes⟩
  shaped' := ⟨h.shaped'.count, h.shaped'.lanes⟩
  lanes := h.lanes

theorem AgreeOnActive.advance (h : AgreeOnActive d s s') : AgreeOnActive d s.advance s'.advance where
  only := by rw [State.advance, h.only]; rfl
  shaped := ⟨h.shaped.count, h.shaped.lanes⟩
  shaped' := ⟨h.shaped'.count, h.shaped'.lanes⟩
  lanes := h.lanes

theorem AgreeOnActive.takeFault (h : AgreeOnActive d s s') (f : FaultKind) :
    AgreeOnActive d (takeFault f s) (takeFault f s') where
  only := by rw [takeFault_eq_afterFault, h.only]; rfl
  shaped := ⟨h.shaped.count, h.shaped.lanes⟩
  shaped' := ⟨h.shaped'.count, h.shaped'.lanes⟩
  lanes := h.lanes

end

/-- R87, R88: at an active lane the operation of an instruction does the same in both states: it raises the same fault,
writes the same value to its own lane of the destination, or stores the same byte. -/
theorem laneOp_of_agree {i : Instr} {l : Nat} {s s' : State} (h : AgreeOnActive i.dst s s') (hl : s.active i.dst l) :
    (∃ f, laneOp i l s = .error f ∧ laneOp i l s' = .error f) ∨
    (∃ v, laneOp i l s = .ok (s.setLane (uint i.dst) l v) ∧ laneOp i l s' = .ok (s'.setLane (uint i.dst) l v)) ∨
    (∃ a v, laneOp i l s = .ok (s.memWrite a v) ∧ laneOp i l s' = .ok (s'.memWrite a v)) := by
  have hop := h.operand_eq hl
  cases i with
  | mov ty d a b => exact .inr (.inl ⟨_, rfl, by simp only [laneOp, movLane, hop, Instr.dst]⟩)
  | add ty d a b | sub ty d a b | mul ty d a b =>
    exact .inr (.inl ⟨_, rfl, by simp only [laneOp, binaryLane, hop, Instr.dst]⟩)
  | div ty d a b =>
    simp only [laneOp, divLane, hop]
    split
    · exact .inl ⟨_, rfl, rfl⟩
    · exact .inr (.inl ⟨_, rfl, rfl⟩)
  | load ty d a b =>
    cases hr : s.inRange (operand a l s) <;>
      simp only [laneOp, loadLane, effectiveAddress, hop, h.inRange_eq, h.memRead_eq, hr]
    · exact .inl ⟨_, rfl, rfl⟩
    · exact .inr (.inl ⟨_, rfl, rfl⟩)
  | store ty d a b =>
    have hdata : s'.lane (uint d) l = s.lane (uint d) l := h.lanes _ l hl
    cases hr : s.inRange (operand a l s) <;>
      simp only [laneOp, storeLane, effectiveAddress, hop, h.inRange_eq, hdata, hr]
    · exact .inl ⟨_, rfl, rfl⟩
    · exact .inr (.inr ⟨_, _, rfl, rfl⟩)
  | _ => exact .inl ⟨_, rfl, rfl⟩

/-- Two lane loops that end alike: both run out or both raise the same fault, in agreeing states. -/
inductive LoopEndsAgree (d : Word) : LoopEnd → LoopEnd → Prop where
  | done {u u' : State} (h : AgreeOnActive d u u') : LoopEndsAgree d (.done u) (.done u')
  | raised (f : FaultKind) {u u' : State} (h : AgreeOnActive d u u') : LoopEndsAgree d (.raised f u) (.raised f u')

theorem laneLoop_of_agree {i : Instr} {xs : List Nat} {s s' : State} (h : AgreeOnActive i.dst s s')
    (hd : uint i.dst < s.params.numRegs) (hxs : ∀ l ∈ xs, l < s.params.numLanes) :
    LoopEndsAgree i.dst (laneLoop (uint i.dst) (laneOp i) xs s) (laneLoop (uint i.dst) (laneOp i) xs s') := by
  induction xs generalizing s s' with
  | nil => exact .done h
  | cons l xs ih =>
    obtain ⟨hl, hrest⟩ := List.forall_mem_cons.mp hxs
    simp only [laneLoop, h.maskBit_eq]
    split
    · rename_i hm
      rcases laneOp_of_agree h ⟨hl, hm⟩ with ⟨f, e, e'⟩ | ⟨v, e, e'⟩ | ⟨a, v, e, e'⟩ <;> simp only [e, e']
      · exact .raised f h
      · exact ih (h.setLane hd hl v) hd hrest
      · exact ih (h.memWrite a v) hd hrest
    · exact ih h hd hrest

theorem finish_of_agree {d : Word} {e e' : LoopEnd} (h : LoopEndsAgree d e e') :
    AgreeOnActive d (finish e) (finish e') := by
  cases h with
  | done h => exact h.advance
  | raised f h => exact h.takeFault f

/-- R87: an instruction leads agreeing states to agreeing states. -/
theorem exec_of_agree {i : Instr} {s s' : State} (h : AgreeOnActive i.dst s s') :
    ∃ t t', exec i s = .next t ∧ exec i s' = .next t' ∧ AgreeOnActive i.dst t t' := by
  cases hv : i.validFor s.params.numRegs with
  | false => exact ⟨_, _, exec_of_invalid hv, exec_of_invalid (h.params ▸ hv), h.takeFault .invalidRegister⟩
  | true =>
    refine ⟨_, _, exec_of_valid hv, exec_of_valid (h.params ▸ hv), ?_⟩
    rw [h.params]
    exact finish_of_agree (laneLoop_of_agree h (uint_dst_lt hv) fun l => List.mem_range.mp)

theorem SameSetting.active_iff {s t : State} (h : SameSetting s t) (d : Word) (l : Nat) :
    t.active d l ↔ s.active d l := by
  rw [State.active, State.active, h.params, maskBit_of_masks_eq h.masks]

/-- Settles O27: agreement on the active lanes is carried through each lane operation, the loop and its end. -/
theorem inactiveLanesPlayNoPart : Obligations.InactiveLanesPlayNoPart := by
  intro i s s' t t' hs hs' honly hlanes hx hx'
  obtain ⟨u, u', hu, hu', hagree⟩ := exec_of_agree ⟨honly, hs.shaped, hs'.shaped, hlanes⟩
  cases hx.symm.trans hu
  cases hx'.symm.trans hu'
  exact ⟨hagree.only, fun r l hl => hagree.lanes r l (((exec_sameSetting hx).active_iff _ l).mpr hl)⟩

/-! ### Validation (R84, R85) -/

theorem Src.validFor_iff {n : Nat} {x : Src} : x.validFor n = true ↔ ∀ f, x = .reg f → uint f < n := by
  cases x <;> simp [Src.validFor]

theorem Instr.validFor_iff {n : Nat} {i : Instr} :
    i.validFor n = true ↔ uint i.dst < n ∧ (∀ f, i.src1 = .reg f → uint f < n) ∧ ∀ f, i.src2 = .reg f → uint f < n := by
  simp only [Instr.validFor, Bool.and_eq_true, decide_eq_true_eq, Src.validFor_iff, and_assoc]

/-- R84, R187: no lane operation raises InvalidRegister. -/
theorem laneOp_error_code {i : Instr} {l : Nat} {s : State} {f : FaultKind} (h : laneOp i l s = .error f) :
    f.code ≠ 1 := by
  rcases laneOp_error h with ⟨rfl, -⟩ | ⟨rfl, -⟩ | ⟨rfl, -⟩ <;> decide

/-- R84: an instruction that passes validation does not fault with kind 1. -/
theorem exec_faultKind_of_valid {i : Instr} {s t : State} (hv : i.validFor s.params.numRegs = true)
    (hf : s.faulted = false) (hx : exec i s = .next t) : t.faulted = true → t.faultKind ≠ 1 := by
  rcases exec_cases hx with ⟨hinv, -⟩ | ⟨-, u, rfl, hu⟩ | ⟨-, f, u, rfl, hu⟩
  · simp [hv] at hinv
  · have hcontrol : SameControl s u := by
      simpa only [hu, LoopEnd.state] using loop_sameControl i (List.range s.params.numLanes) s
    have hfaulted : u.faulted = s.faulted := by rw [hcontrol.eq]
    simp [hfaulted, hf]
  · exact fun _ => laneLoop_raised (fun f => f.code ≠ 1) (fun _ _ _ => laneOp_error_code) hu

/-- Settles O10: an invalid field fails validation, and past validation only the lanes can raise a fault. -/
theorem validationComesBeforeAnyLane : Obligations.ValidationComesBeforeAnyLane := by
  intro i s
  refine ⟨fun hbad => ?_, fun hd h1 h2 hf => ?_⟩
  · refine exec_of_invalid (Bool.eq_false_iff.mpr fun hv => ?_)
    obtain ⟨hd, h1, h2⟩ := Instr.validFor_iff.mp hv
    rcases hbad with hle | ⟨f, hf, hle⟩ | ⟨f, hf, hle⟩
    · exact Nat.not_lt.mpr hle hd
    · exact Nat.not_lt.mpr hle (h1 f hf)
    · exact Nat.not_lt.mpr hle (h2 f hf)
  · obtain ⟨t, hx⟩ := exec_answers_next i s
    exact ⟨t, hx, exec_faultKind_of_valid (Instr.validFor_iff.mpr ⟨hd, h1, h2⟩) hf hx⟩

/-- Settles O22: the lane loop over inactive lanes does nothing, and the cursor moves on. -/
theorem noActiveLaneNoEffect : Obligations.NoActiveLaneNoEffect := by
  intro i s hv hnone
  have hoff : ∀ l ∈ List.range s.params.numLanes, s.maskBit (uint i.dst) l = false := fun l hl =>
    Bool.eq_false_iff.mpr fun hm => hnone l ⟨List.mem_range.mp hl, hm⟩
  rw [exec_of_valid hv, laneLoop_inactive _ hoff, finish, State.advance, advance_pc_eq]

/-- Settles O11: both forms are as `operand` and `lane` define them. -/
theorem operandResolution : Obligations.OperandResolution :=
  fun _ _ _ => ⟨rfl, rfl⟩

/-! ### The run (R80) -/

/-- Settles O34: the word at the cursor is the word fetched. -/
theorem stepRunsTheDecodedInstruction : Obligations.StepRunsTheDecodedInstruction :=
  fun _ _ _ => step_of_fetch_some

/-- Settles O35: nothing is fetched, so the step is the end of the run. -/
theorem runEndsAtTheEndOfTheProgram : Obligations.RunEndsAtTheEndOfTheProgram :=
  fun _ hr hpc => step_of_fetch_none hr (fetch_eq_none.mpr hpc)

/-- Settles O36: the loop over no words is the end of the run. -/
theorem emptyRunOnlySetsExecuted : Obligations.EmptyRunOnlySetsExecuted := by
  intro s hf hr hprog
  rw [transact_executeAll hf, hprog, runWords, endRun, hr]
  rfl

/-- R195: a machine between runs with no command waiting keeps its state, however long. -/
theorem reaches_of_idle {n : Nat} {s t : State} (hr : s.running = false) (hb : s.inbox = []) (h : Reaches n s t) :
    t = s := by
  induction n with
  | zero => exact reaches_zero.mp h
  | succ n ih =>
    obtain ⟨u, hu, hrest⟩ := reaches_succ.mp h
    obtain rfl : s = u := by simpa [step, hr, serveHost, hb] using hu
    exact ih hrest

/-- R80, R170: after `k` steps of a run still under way the cursor has moved on by `k`; program and masks are the same. -/
theorem run_under_way {k : Nat} {s t : State} (h : s.Inv) (hb : s.inbox = []) (hreach : Reaches k s t)
    (hrun : t.running = true) : uint t.pc = uint s.pc + k ∧ t.Inv ∧ t.prog = s.prog ∧ t.masks = s.masks := by
  induction k generalizing s with
  | zero =>
    obtain rfl := reaches_zero.mp hreach
    exact ⟨rfl, h, rfl, rfl⟩
  | succ k ih =>
    have stopped : ∀ {n u}, u.running = false → u.inbox = [] → ¬Reaches n u t := fun hu hub hn => by
      simp [reaches_of_idle hu hub hn, hu] at hrun
    obtain ⟨u, hu, hrest⟩ := reaches_succ.mp hreach
    rcases step_cases hu with ⟨-, -, rfl⟩ | ⟨hr, w, i, hfetch, -, hx⟩ | ⟨hr, -⟩
    · exact absurd hrest (stopped rfl hb)
    · have hset := exec_sameSetting hx
      have hub := hset.inbox.trans hb
      rcases exec_run_cases hr (h.not_faulted hr) hx with ⟨-, -, hpc⟩ | ⟨-, hur⟩
      · obtain ⟨htpc, hinv, hprog, hmasks⟩ := ih (exec_inv h (fetch_lt hfetch) hx) hub hrest
        rw [hpc, h.uint_next_pc (fetch_lt hfetch)] at htpc
        exact ⟨by omega, hinv, hprog.trans hset.prog, hmasks.trans hset.masks⟩
      · exact absurd hrest (stopped hur hub)
    · exact absurd hreach (stopped hr hb)

/-- Settles O37: the cursor moves on by one a step, and the invariant keeps it within the program. -/
theorem cursorVisitsEachInstructionInOrder : Obligations.CursorVisitsEachInstructionInOrder := by
  intro s t k h _ hpc hb hreach hrun
  obtain ⟨htpc, hinv, hprog, hmasks⟩ := run_under_way h hb hreach hrun
  have hk : uint t.pc = k := by rw [htpc, hpc]; exact Nat.zero_add k
  have hle := hinv.cursor hrun
  rw [hk, State.plen, hprog] at hle
  exact ⟨hk, hle, hprog, hmasks⟩

end Sys2Proof.Machine

/-! ## Arithmetic

What MOV, ADD, SUB, MUL and DIV write, and where DIV faults (spec/41_arith.md R100 to R106). An active lane is written
once and reads only its own lane of the sources, so its operands are those before the instruction (R88). -/

namespace Sys2Proof.Machine

/-! ### MOV, ADD, SUB, MUL -/

/-- Settles O12: SRC1 of a lane still reads as before the instruction when MOV writes the lane. -/
theorem movCopiesItsSource : Obligations.MovCopiesItsSource := by
  intro s ty d a b hinv hv
  refine exec_writes hinv.shaped hv fun l _ _ t hw => ?_
  simp only [laneOp, movLane, operand_fresh hw, Instr.dst]

/-- R88, R105: an instruction whose lane operation computes `f` of both operands writes `f` of the operands as they were
before it, whether or not the destination is a source. -/
theorem exec_binaryLane {i : Instr} {s : State} (f : Word → Word → Word) (hinv : s.Inv)
    (hv : i.validFor s.params.numRegs = true) (hop : laneOp i = binaryLane f (uint i.dst) i.src1 i.src2) :
    WritesLanes i s (fun l => f (operand i.src1 l s) (operand i.src2 l s)) := by
  refine exec_writes hinv.shaped hv fun l _ _ t hw => ?_
  simp only [hop, binaryLane, operand_fresh hw]

/-- Settles O13: the lane operation of ADD computes the wrapped sum. -/
theorem addWritesTheWrappedSum : Obligations.AddWritesTheWrappedSum :=
  fun _ _ _ _ _ hinv hv => exec_binaryLane addWord hinv hv rfl

/-- Settles O14: the lane operation of SUB computes the wrapped difference. -/
theorem subWritesTheWrappedDifference : Obligations.SubWritesTheWrappedDifference :=
  fun _ _ _ _ _ hinv hv => exec_binaryLane subWord hinv hv rfl

/-- Settles O15: the lane operation of MUL computes the wrapped product. -/
theorem mulWritesTheLowProduct : Obligations.MulWritesTheLowProduct :=
  fun _ _ _ _ _ hinv hv => exec_binaryLane mulWord hinv hv rfl

/-! ### The low 32 bits (R105) -/

theorem wrap32_sint (a : Word) : wrap32 (sint a) = a := BitVec.ofInt_toInt

theorem wrap32_uint (a : Word) : wrap32 (uint a) = a := by
  rw [wrap32, uint, BitVec.ofInt_natCast, BitVec.ofNat_toNat, BitVec.setWidth_eq]

theorem wrap32_add (x y : Int) : wrap32 (x + y) = wrap32 x + wrap32 y := BitVec.ofInt_add x y

theorem wrap32_mul (x y : Int) : wrap32 (x * y) = wrap32 x * wrap32 y := BitVec.ofInt_mul x y

theorem wrap32_neg (x : Int) : wrap32 (-x) = -wrap32 x := BitVec.ofInt_neg

theorem wrap32_sub (x y : Int) : wrap32 (x - y) = wrap32 x - wrap32 y := by
  rw [Int.sub_eq_add_neg, wrap32_add, wrap32_neg, BitVec.sub_eq_add_neg]

/-- Settles O16: wrapping commutes with sum, difference and product, and undoes either reading of a pattern. -/
theorem wrappedArithmeticIgnoresSignedness : Obligations.WrappedArithmeticIgnoresSignedness := by
  intro a b
  refine ⟨?_, ?_, ?_, ?_⟩
  · rw [wrap32_add, wrap32_sint, wrap32_sint]
  · rw [wrap32_sub, wrap32_sint, wrap32_sint]
  · rw [wrap32_mul, wrap32_sint, wrap32_sint]
  · rw [wrap32_mul, wrap32_mul, wrap32_sint, wrap32_sint, wrap32_uint, wrap32_uint]

/-! ### DIV -/

/-- R104: a divisor that is not zero: the quotient is written. -/
theorem divLane_of_ne_zero {d l : Nat} {a b : Src} {s : State} (h : sint (operand b l s) ≠ 0) :
    divLane d a b l s = .ok (s.setLane d l (divWord (operand a l s) (operand b l s))) := if_neg h

/-- R104: a zero divisor: nothing is written. -/
theorem divLane_of_zero {d l : Nat} {a b : Src} {s : State} (h : sint (operand b l s) = 0) :
    divLane d a b l s = .error .divideByZero := if_pos h

/-- R88, R104: DIV about to write a lane whose divisor before the instruction is not zero. -/
theorem divLane_writes_fresh {d l : Nat} {a b : Src} {value : Nat → Word} {s t : State}
    (hw : WroteBelow d l value s t) (h : sint (operand b l s) ≠ 0) :
    divLane d a b l t = .ok (t.setLane d l (divWord (operand a l s) (operand b l s))) := by
  rw [← operand_fresh hw b] at h ⊢
  rw [divLane_of_ne_zero h, operand_fresh hw a]

/-- Settles O17: each lane divides by the divisor it had before the instruction, up to the first that is zero. -/
theorem divLaneByLane : Obligations.DivLaneByLane := by
  intro s ty d a b hinv hv
  refine ⟨fun hne => ?_, fun j hj hzero hne => ?_⟩
  · exact exec_writes hinv.shaped hv fun l hl hm t hw => divLane_writes_fresh hw (hne l ⟨hl, hm⟩)
  · refine exec_faults_after_writes (f := .divideByZero) hinv.shaped hv hj (fun l hl hm t hw => ?_) fun t hw => ?_
    · exact divLane_writes_fresh hw (hne l hl ⟨hl.trans hj.1, hm⟩)
    · exact divLane_of_zero ((operand_fresh hw b).symm ▸ hzero)

end Sys2Proof.Machine

/-! ## LOAD and STORE

What LOAD and STORE write, and where they fault (spec/42_loadstore.md R120 to R123). No lane of either changes an
address a later lane uses: LOAD writes its own lane only, and STORE writes no register (R88). -/

namespace Sys2Proof.Machine

/-! ### LOAD -/

/-- R120, R122: what LOAD gives lane `l`: the byte at the resolved SRC1, sign-extended. -/
def loadedLane (s : State) (a : Src) (l : Nat) : Word := sext32 (s.memRead (operand a l s))

theorem inRange_of_params_eq {s t : State} (h : t.params = s.params) (a : Word) : t.inRange a = s.inRange a := by
  simp only [State.inRange, h]

theorem loadLane_of_inRange {d l : Nat} {a : Src} {s : State} (h : s.inRange (operand a l s) = true) :
    loadLane d a l s = .ok (s.setLane d l (loadedLane s a l)) := if_pos h

theorem loadLane_of_not_inRange {d l : Nat} {a : Src} {s : State} (h : ¬s.inRange (operand a l s) = true) :
    loadLane d a l s = .error .outOfBoundsAccess := if_neg h

/-- R88: what the lane about to be written loads is what it would have loaded before the instruction. -/
theorem loadedLane_fresh {d l : Nat} {value : Nat → Word} {s t : State} (hw : WroteBelow d l value s t) (a : Src) :
    loadedLane t a l = loadedLane s a l := by
  simp only [loadedLane, State.memRead, hw.mem, operand_fresh hw]

theorem inRange_fresh {d l : Nat} {value : Nat → Word} {s t : State} (hw : WroteBelow d l value s t) (a : Src) :
    t.inRange (operand a l t) = s.inRange (operand a l s) := by
  rw [operand_fresh hw, inRange_of_params_eq hw.params]

/-- R88, R120: LOAD about to write a lane whose address before the instruction is in range. -/
theorem loadLane_writes_fresh {d l : Nat} {a : Src} {value : Nat → Word} {s t : State} (hw : WroteBelow d l value s t)
    (h : s.inRange (operand a l s) = true) : loadLane d a l t = .ok (t.setLane d l (loadedLane s a l)) := by
  rw [loadLane_of_inRange ((inRange_fresh hw a).trans h), loadedLane_fresh hw]

section
variable {s : State} {ty : DType} {d : Word} {a b : Src}

theorem exec_load_writes (hs : s.Shaped) (hv : (Instr.load ty d a b).validFor s.params.numRegs = true)
    (hin : ∀ l, s.active d l → s.inRange (operand a l s) = true) :
    WritesLanes (.load ty d a b) s (loadedLane s a) :=
  exec_writes hs hv fun l hl hm _ hw => loadLane_writes_fresh hw (hin l ⟨hl, hm⟩)

theorem exec_load_faults (hs : s.Shaped) (hv : (Instr.load ty d a b).validFor s.params.numRegs = true) {j : Nat}
    (hj : s.active d j) (hout : ¬s.inRange (operand a j s) = true)
    (hin : ∀ l, l < j → s.active d l → s.inRange (operand a l s) = true) :
    FaultsAfterWrites (.load ty d a b) s j (loadedLane s a) 2 .outOfBoundsAccess := by
  refine exec_faults_after_writes (f := .outOfBoundsAccess) hs hv hj (fun l hl hm t hw => ?_) fun t hw => ?_
  · exact loadLane_writes_fresh hw (hin l hl ⟨hl.trans hj.1, hm⟩)
  · exact loadLane_of_not_inRange ((inRange_fresh hw a).symm ▸ hout)

end

/-- Settles O18: each lane loads from the address it had before the instruction, up to the first out of range. -/
theorem loadLaneByLane : Obligations.LoadLaneByLane := by
  intro s ty d a b hinv hv
  refine ⟨fun hin => ?_, fun j hj hout hin => ?_⟩
  · exact exec_load_writes hinv.shaped hv fun l hl => (inRange_iff s _).mpr (hin l hl)
  · exact exec_load_faults hinv.shaped hv hj ((inRange_iff s _).not.mpr hout)
      fun l hlj hl => (inRange_iff s _).mpr (hin l hlj hl)

/-! ### STORE -/

/-- R122: the byte of memory that lane `l` names with SRC1. -/
def byteAddress (s : State) (a : Src) (l : Nat) : Nat := (sint (operand a l s)).toNat

/-- R121: what lane `l` of a STORE from register `d` stores. -/
def lowByte (s : State) (d : Word) (l : Nat) : Byte := (s.lane (uint d) l).extractLsb' 0 8

theorem storeLane_of_inRange {d : Word} {l : Nat} {a : Src} {s : State} (h : s.inRange (operand a l s) = true) :
    storeLane (uint d) a l s = .ok { s with mem := Memory.write s.mem (byteAddress s a l) (lowByte s d l) } := if_pos h

theorem storeLane_of_not_inRange {d l : Nat} {a : Src} {s : State} (h : ¬s.inRange (operand a l s) = true) :
    storeLane d a l s = .error .outOfBoundsAccess := if_neg h

theorem inRange_stored {d n : Nat} {addr : Nat → Nat} {value : Nat → Byte} {s t : State}
    (hw : StoredBelow d n addr value s t) (a : Src) (l : Nat) :
    t.inRange (operand a l t) = s.inRange (operand a l s) := by
  rw [operand_stored hw, inRange_of_params_eq hw.params]

/-- R88, R121: after other lanes of a STORE, a lane stores the byte and at the address it had before the instruction. -/
theorem storeLane_stores_fresh {d : Word} {n l : Nat} {a : Src} {addr : Nat → Nat} {value : Nat → Byte} {s t : State}
    (hw : StoredBelow (uint d) n addr value s t) (h : s.inRange (operand a l s) = true) :
    storeLane (uint d) a l t = .ok { t with mem := Memory.write t.mem (byteAddress s a l) (lowByte s d l) } := by
  rw [storeLane_of_inRange ((inRange_stored hw a l).trans h)]
  simp only [byteAddress, lowByte, operand_stored hw, lane_of_regs_eq hw.regs]

section
variable {s : State} {ty : DType} {d : Word} {a b : Src}

theorem exec_store_stores (hmem : Memory.wf s.mem = true)
    (hv : (Instr.store ty d a b).validFor s.params.numRegs = true)
    (hin : ∀ l, s.active d l → s.inRange (operand a l s) = true) :
    StoresBytes (.store ty d a b) s (byteAddress s a) (lowByte s d) :=
  exec_stores hmem hv fun l hl hm _ hw => storeLane_stores_fresh hw (hin l ⟨hl, hm⟩)

theorem exec_store_faults (hmem : Memory.wf s.mem = true)
    (hv : (Instr.store ty d a b).validFor s.params.numRegs = true) {j : Nat} (hj : s.active d j)
    (hout : ¬s.inRange (operand a j s) = true)
    (hin : ∀ l, l < j → s.active d l → s.inRange (operand a l s) = true) :
    FaultsAfterStores (.store ty d a b) s j (byteAddress s a) (lowByte s d) 2 .outOfBoundsAccess := by
  refine exec_faults_after_stores (f := .outOfBoundsAccess) hmem hv hj (fun l hl hm t hw => ?_) fun t hw => ?_
  · exact storeLane_stores_fresh hw (hin l hl ⟨hl.trans hj.1, hm⟩)
  · exact storeLane_of_not_inRange ((inRange_stored hw a j).symm ▸ hout)

end

/-- Settles O19: each lane stores at the address it had before the instruction, up to the first out of range. -/
theorem storeLaneByLane : Obligations.StoreLaneByLane := by
  intro s ty d a b hinv hv
  refine ⟨fun hin => ?_, fun j hj hout hin => ?_⟩
  · exact exec_store_stores hinv.memCanonical hv fun l hl => (inRange_iff s _).mpr (hin l hl)
  · exact exec_store_faults hinv.memCanonical hv hj ((inRange_iff s _).not.mpr hout)
      fun l hlj hl => (inRange_iff s _).mpr (hin l hlj hl)

/-! ### A STORE, then a LOAD (R123) -/

theorem validFor_of_completes {i : Instr} {s t : State} (hx : exec i s = .next t) (hf : t.faulted = false) :
    i.validFor s.params.numRegs = true := by
  by_contra hv
  cases hx.symm.trans (exec_of_invalid (Bool.eq_false_iff.mpr hv))
  cases hf

/-- R89: if an instruction faults at the lowest active lane without `P`, then one that completes has `P` in every active
lane. -/
theorem active_of_completes {i : Instr} {s t : State} {P : Nat → Prop} (hx : exec i s = .next t)
    (hf : t.faulted = false)
    (hfault : ∀ j, s.active i.dst j → ¬P j → (∀ l, l < j → s.active i.dst l → P l) →
      ∃ u k c, exec i s = .next (State.afterFault u k c)) :
    ∀ l, s.active i.dst l → P l := by
  intro l
  induction l using Nat.strong_induction_on with
  | _ l ih =>
    intro hl
    by_contra hP
    obtain ⟨u, k, c, hu⟩ := hfault l hl hP ih
    cases hx.symm.trans hu
    cases hf

section
variable {s t : State} {ty : DType} {d : Word} {a b : Src}

theorem inRange_of_load_completes (hs : s.Shaped) (hx : exec (.load ty d a b) s = .next t) (hf : t.faulted = false) :
    ∀ l, s.active d l → s.inRange (operand a l s) = true :=
  active_of_completes hx hf fun _ hj hout hin =>
    have ⟨u, _, _, hu⟩ := exec_load_faults hs (validFor_of_completes hx hf) hj hout hin
    ⟨u, _, _, hu⟩

theorem inRange_of_store_completes (hmem : Memory.wf s.mem = true) (hx : exec (.store ty d a b) s = .next t)
    (hf : t.faulted = false) : ∀ l, s.active d l → s.inRange (operand a l s) = true :=
  active_of_completes hx hf fun _ hj hout hin =>
    have ⟨u, _, _, hu⟩ := exec_store_faults hmem (validFor_of_completes hx hf) hj hout hin
    ⟨u, _, _, hu⟩

/-- R120: an active lane of a LOAD that completes holds the byte at its address, sign-extended. -/
theorem lane_of_load_completes (hs : s.Shaped) (hx : exec (.load ty d a b) s = .next t) (hf : t.faulted = false)
    {l : Nat} (hl : s.active d l) : t.lane (uint d) l = loadedLane s a l := by
  obtain ⟨t', hx', -, hwritten, -⟩ :=
    exec_load_writes hs (validFor_of_completes hx hf) (inRange_of_load_completes hs hx hf)
  cases hx.symm.trans hx'
  exact hwritten l hl.1 hl

/-- R121, R52: after a STORE that completes, the byte named by an active lane that no higher one names is the lane's low
byte. -/
theorem read_of_store_completes (hmem : Memory.wf s.mem = true) (hx : exec (.store ty d a b) s = .next t)
    (hf : t.faulted = false) {l : Nat} (hl : s.active d l)
    (hhighest : ∀ k, l < k → s.active d k → sint (operand a k s) ≠ sint (operand a l s)) :
    Memory.read t.mem (byteAddress s a l) = lowByte s d l := by
  have hin := inRange_of_store_completes hmem hx hf
  obtain ⟨t', hx', -, hstored, -⟩ := exec_store_stores hmem (validFor_of_completes hx hf) hin
  cases hx.symm.trans hx'
  refine hstored l hl.1 hl fun k hlk _ hk haddr => hhighest k hlk hk ?_
  rw [eq_of_inRange_of_sint_toNat_eq (hin l hl) (hin k hk) haddr]

end

theorem operand_of_regs_eq {s t : State} (h : t.regs = s.regs) (x : Src) (l : Nat) : operand x l t = operand x l s := by
  cases x with
  | imm v => rfl
  | reg f => exact lane_of_regs_eq h _ _

/-- R9: the low byte of a word, as a signed integer. -/
theorem toInt_lowByte (v : Word) : (v.extractLsb' 0 8).toInt = (sint v).bmod (2 ^ 8) := by
  rw [← BitVec.setWidth_eq_extractLsb' (by decide), ← BitVec.signExtend_eq_setWidth_of_le v (by decide)]
  exact BitVec.toInt_signExtend v

/-- R9: a byte and its sign extension are one signed integer. -/
theorem sint_sext32 (x : Byte) : sint (sext32 x) = x.toInt := BitVec.toInt_signExtend_of_le (by decide)

theorem lowByte_sext32 (x : Byte) : (sext32 x).extractLsb' 0 8 = x := by
  apply BitVec.eq_of_toInt_eq
  rw [toInt_lowByte, sint_sext32, BitVec.toInt_bmod_cancel]

/-- R123: a lane is its own low byte sign-extended exactly when it is a byte's signed value. -/
theorem sext32_lowByte_eq_iff (v : Word) : sext32 (v.extractLsb' 0 8) = v ↔ -128 ≤ sint v ∧ sint v ≤ 127 := by
  have hvalue : sint (sext32 (v.extractLsb' 0 8)) = (sint v).bmod 256 := (sint_sext32 _).trans (toInt_lowByte v)
  have hinj : sint (sext32 (v.extractLsb' 0 8)) = sint v ↔ sext32 (v.extractLsb' 0 8) = v := BitVec.toInt_inj
  rw [← hinj, hvalue, Int.bmod_def]
  omega

/-- Settles O24: STORE leaves the registers, so LOAD reads the byte the lane stored. -/
theorem storeThenLoadRoundTrip : Obligations.StoreThenLoadRoundTrip := by
  intro s t u ty ty' d e a b b' l hinv hstore ht hload hu hd he hhighest
  have hregs : t.regs = s.regs :=
    exec_regs_of_store_or_above (i := .store ty d a b) (Nat.le_refl 6) hstore
  have hset : SameSetting s t := exec_sameSetting hstore
  have hlane : u.lane (uint e) l = sext32 (lowByte s d l) := by
    rw [lane_of_load_completes (exec_keeps_dataOk hstore hinv.dataOk).shaped hload hu ((hset.active_iff e l).mpr he),
      loadedLane, State.memRead, operand_of_regs_eq hregs]
    exact congrArg sext32 (read_of_store_completes hinv.memCanonical hstore ht hd hhighest)
  refine ⟨hlane, ?_, ?_⟩
  · rw [hlane]
    exact lowByte_sext32 _
  · rw [hlane]
    exact sext32_lowByte_eq_iff _

end Sys2Proof.Machine

/-! ## Opcodes without semantics

What the declared opcodes 7 to 12 and the unrecognised opcodes 13 to 15 do (spec/43_unsupported.md R140, R141). Their lane
operation raises whatever the lane and the state, so the loop ends at the first active lane with the state it began in. -/

namespace Sys2Proof.Machine

/-- R89: a lane operation that raises at every lane: a loop that meets an active lane raises with nothing changed. -/
theorem laneLoop_raises_unchanged {d : Nat} {op : Nat → State → Except FaultKind State} {f : FaultKind} {xs : List Nat}
    {s : State} (hop : ∀ l, op l s = .error f) (h : ∃ l ∈ xs, s.maskBit d l = true) :
    laneLoop d op xs s = .raised f s := by
  induction xs with
  | nil => simp at h
  | cons l xs ih =>
    cases hm : s.maskBit d l with
    | true => simp only [laneLoop, hm, if_true, hop]
    | false =>
      have hrest : ∃ k ∈ xs, s.maskBit d k = true := by simpa [hm] using h
      simp only [laneLoop, hm]
      exact ih hrest

section
variable {i : Instr} {s : State}

/-- R140, R141: an opcode without semantics, at a state with an active lane. -/
theorem exec_faults_of_unsupportedLane (hop : laneOp i = unsupportedLane) (hv : i.validFor s.params.numRegs = true)
    (hactive : ∃ l, s.active i.dst l) : exec i s = .next (s.afterFault 4 .unsupportedInstruction) := by
  obtain ⟨l, hl, hm⟩ := hactive
  have hraised : laneLoop (uint i.dst) (laneOp i) (List.range s.params.numLanes) s =
      .raised .unsupportedInstruction s :=
    laneLoop_raises_unchanged (fun _ => by rw [hop, unsupportedLane]) ⟨l, List.mem_range.mpr hl, hm⟩
  rw [exec_of_valid hv, hraised, finish, takeFault_eq_afterFault]
  rfl

/-- R140, R141, R90: the two outcomes of an opcode without semantics. -/
theorem exec_of_unsupportedLane (hop : laneOp i = unsupportedLane) (hv : i.validFor s.params.numRegs = true) :
    ((∃ l, s.active i.dst l) → exec i s = .next (s.afterFault 4 .unsupportedInstruction)) ∧
    ((∀ l, ¬s.active i.dst l) → exec i s = .next { s with pc := s.pc + 1#32 }) :=
  ⟨exec_faults_of_unsupportedLane hop hv, noActiveLaneNoEffect i s hv⟩

end

/-- Settles O20: each of the six opcodes has the lane operation that only raises. -/
theorem declaredOpcodesFaultAtTheFirstActiveLane : Obligations.DeclaredOpcodesFaultAtTheFirstActiveLane := by
  intro s ty d a b i hi hv
  simp only [List.mem_cons, List.not_mem_nil, or_false] at hi
  rcases hi with rfl | rfl | rfl | rfl | rfl | rfl <;> exact exec_of_unsupportedLane rfl hv

/-- Settles O21: each of the three opcodes has the lane operation that only raises. -/
theorem unrecognisedOpcodesFaultAtTheFirstActiveLane : Obligations.UnrecognisedOpcodesFaultAtTheFirstActiveLane := by
  intro s ty d a b i hi hv
  simp only [List.mem_cons, List.not_mem_nil, or_false] at hi
  rcases hi with rfl | rfl | rfl <;> exact exec_of_unsupportedLane rfl hv

end Sys2Proof.Machine

/-! ## The host interface

What each host command answers and changes (spec/44_host_interface.md R161 to R170): an equation for each of its
outcomes, and the obligations read off from them. -/

namespace Sys2Proof.Machine

/-! ### The outcomes of each command -/

section
variable {s : State} {r : Word} {m : List Bool} {w : IWord}

theorem takeCommand_installMask_of_faulted (hf : s.faulted = true) :
    takeCommand (.installMask r m) s = State.respond .engineFaulted .none s := by
  simp [takeCommand, cmdInstallMask, hf]

theorem takeCommand_installMask_of_invalid (hf : s.faulted = false) (hr : s.params.numRegs ≤ uint r) :
    takeCommand (.installMask r m) s = State.respond .invalidRegister .none s := by
  simp [takeCommand, cmdInstallMask, hf, hr]

theorem takeCommand_installMask_of_valid (hf : s.faulted = false) (hr : uint r < s.params.numRegs) :
    takeCommand (.installMask r m) s =
      State.respond .ok .none { s with masks := s.masks.set (uint r) (fitMask s.params.numLanes m) } := by
  simp [takeCommand, cmdInstallMask, hf, Nat.not_le.mpr hr]

theorem takeCommand_append_of_faulted (hf : s.faulted = true) :
    takeCommand (.append w) s = State.respond .engineFaulted .none s := by
  simp [takeCommand, cmdAppend, hf]

theorem takeCommand_append_of_full (hf : s.faulted = false) (hw : wordWellFormed w = true)
    (hcap : s.plen = s.params.progCap) : takeCommand (.append w) s = State.respond .programFull .none s := by
  simp [takeCommand, cmdAppend, hf, hw, hcap]

theorem takeCommand_append_of_room (hf : s.faulted = false) (hw : wordWellFormed w = true)
    (hcap : s.plen ≠ s.params.progCap) :
    takeCommand (.append w) s = State.respond .ok .none { s with prog := s.prog ++ [w] } := by
  simp [takeCommand, cmdAppend, hf, hw, hcap]

theorem takeCommand_executeAll_of_faulted (hf : s.faulted = true) :
    takeCommand .executeAll s = State.respond .engineFaulted .none s := by
  simp [takeCommand, cmdExecuteAll, hf]

theorem takeCommand_readRegister_of_invalid (hr : s.params.numRegs ≤ uint r) :
    takeCommand (.readRegister r) s = State.respond .invalidRegister .none s := by
  simp [takeCommand, cmdReadRegister, hr]

theorem takeCommand_readRegister_of_valid (hr : uint r < s.params.numRegs) :
    takeCommand (.readRegister r) s = State.respond .ok (.lanes (s.regs.getD (uint r) [])) s := by
  simp [takeCommand, cmdReadRegister, Nat.not_le.mpr hr]

theorem takeCommand_readMask_of_invalid (hr : s.params.numRegs ≤ uint r) :
    takeCommand (.readMask r) s = State.respond .invalidRegister .none s := by
  simp [takeCommand, cmdReadMask, hr]

theorem takeCommand_readMask_of_valid (hr : uint r < s.params.numRegs) :
    takeCommand (.readMask r) s = State.respond .ok (.mask (s.masks.getD (uint r) [])) s := by
  simp [takeCommand, cmdReadMask, Nat.not_le.mpr hr]

end

/-- Settles O45: the state `reset` leaves, with its response, is written out. -/
theorem resetCommandRestoresTheResetState : Obligations.ResetCommandRestoresTheResetState :=
  fun _ => rfl

/-- Settles O48: the mask test is the test of well-formedness, and each clause is one outcome of `append`. -/
theorem appendAddsAtTheEnd : Obligations.AppendAddsAtTheEnd := by
  intro s w
  rw [ne_eq, ← wordWellFormed_iff_and_eq_zero]
  exact ⟨takeCommand_append_of_faulted,
    fun hf hw => takeCommand_append_of_malformed hf (Bool.eq_false_iff.mpr hw),
    takeCommand_append_of_full, takeCommand_append_of_room⟩

/-- Settles O49: the two outcomes of `execute_all`. -/
theorem executeAllStartsFromTheCurrentState : Obligations.ExecuteAllStartsFromTheCurrentState :=
  fun _ => ⟨takeCommand_executeAll_of_faulted, takeCommand_executeAll⟩

/-! ### Masks -/

/-- R23: a mask of exactly `L` bits is taken as it is. -/
theorem fitMask_of_length_eq {n : Nat} {m : List Bool} (h : m.length = n) : fitMask n m = m := by
  refine List.ext_getElem ((length_fitMask n m).trans h.symm) fun i _ hi => ?_
  simp [fitMask, hi]

/-- Settles O46: the three outcomes of `install_mask`; the accepted one sets one entry of the list of masks. -/
theorem installMaskSetsOneMask : Obligations.InstallMaskSetsOneMask := by
  intro s r m h hm
  refine ⟨_, rfl, takeCommand_installMask_of_faulted, takeCommand_installMask_of_invalid, fun hf hr => ?_⟩
  rw [takeCommand_installMask_of_valid hf hr, fitMask_of_length_eq hm]
  exact ⟨rfl, List.getElem?_set_self (h.masksCount ▸ hr), fun q hq => List.getElem?_set_ne hq.symm⟩

/-- Settles O47: the mask installed is the one `read_mask` finds at that register. -/
theorem installedMaskReadsBack : Obligations.InstalledMaskReadsBack := by
  intro s r m h hf hr hm
  rw [takeCommand_installMask_of_valid hf hr, fitMask_of_length_eq hm, takeCommand_readMask_of_valid]
  · have hset : (s.masks.set (uint r) m).getD (uint r) [] = m := by simp [h.masksCount, hr]
    simp only [respond_outbox, respond_masks, hset, List.append_assoc, List.singleton_append]
  · exact hr

/-! ### Registers -/

/-- Settles O50: `read_register` answers the register's list of lanes, which has `L` entries. -/
theorem readRegisterReturnsTheLanes : Obligations.ReadRegisterReturnsTheLanes := by
  intro s r h
  refine ⟨takeCommand_readRegister_of_invalid, fun hr => ⟨_, takeCommand_readRegister_of_valid hr, ?_⟩⟩
  have hr' : uint r < s.regs.length := h.regsCount.symm ▸ hr
  have hlen : (s.regs.getD (uint r) []).length = s.params.numLanes := by
    rw [List.getD_eq_getElem _ _ hr']
    exact h.lanesCount _ (List.getElem_mem hr')
  refine ⟨hlen, fun l hl => ?_⟩
  have hl' : l < (s.regs.getD (uint r) []).length := hlen.symm ▸ hl
  rw [State.lane, List.getD_eq_getElem (s.regs.getD (uint r) []) _ hl', List.getElem?_eq_getElem hl']

/-! ### Error responses (R169) -/

/-- What taking a command can answer: an error, with nothing changed; OK; or no response, when `execute_all` starts a
run. -/
theorem takeCommand_answer_cases (c : Command) (s : State) :
    (∃ k, takeCommand c s = State.respond k .none s ∧
      k ∈ [ResponseCode.invalidRegister, .malformedRecord, .programFull, .engineFaulted]) ∨
    (∃ d t, takeCommand c s = State.respond .ok d t ∧ t.outbox = s.outbox ∧ (t.faulted = true → s.faulted = true)) ∨
    ((takeCommand c s).outbox = s.outbox ∧ (takeCommand c s).faulted = s.faulted) := by
  cases c with
  | reset => exact .inr (.inl ⟨_, _, rfl, rfl, nofun⟩)
  | installMask r m =>
    cases hf : s.faulted with
    | true => exact .inl ⟨_, takeCommand_installMask_of_faulted hf, by decide⟩
    | false =>
      rcases Nat.lt_or_ge (uint r) s.params.numRegs with hr | hr
      · exact .inr (.inl ⟨_, _, takeCommand_installMask_of_valid hf hr, rfl, by simp [hf]⟩)
      · exact .inl ⟨_, takeCommand_installMask_of_invalid hf hr, by decide⟩
  | append w =>
    cases hf : s.faulted with
    | true => exact .inl ⟨_, takeCommand_append_of_faulted hf, by decide⟩
    | false =>
      cases hw : wordWellFormed w with
      | false => exact .inl ⟨_, takeCommand_append_of_malformed hf hw, by decide⟩
      | true =>
        by_cases hcap : s.plen = s.params.progCap
        · exact .inl ⟨_, takeCommand_append_of_full hf hw hcap, by decide⟩
        · exact .inr (.inl ⟨_, _, takeCommand_append_of_room hf hw hcap, rfl, by simp [hf]⟩)
  | executeAll =>
    cases hf : s.faulted with
    | true => exact .inl ⟨_, takeCommand_executeAll_of_faulted hf, by decide⟩
    | false => exact .inr (.inr (by rw [takeCommand_executeAll hf]; exact ⟨rfl, hf⟩))
  | readRegister r =>
    rcases Nat.lt_or_ge (uint r) s.params.numRegs with hr | hr
    · exact .inr (.inl ⟨_, _, takeCommand_readRegister_of_valid hr, rfl, id⟩)
    · exact .inl ⟨_, takeCommand_readRegister_of_invalid hr, by decide⟩
  | readMask r =>
    rcases Nat.lt_or_ge (uint r) s.params.numRegs with hr | hr
    · exact .inr (.inl ⟨_, _, takeCommand_readMask_of_valid hr, rfl, id⟩)
    · exact .inl ⟨_, takeCommand_readMask_of_invalid hr, by decide⟩
  | readStatus => exact .inr (.inl ⟨_, _, rfl, rfl, id⟩)

/-- Settles O52: of the three kinds of answer only the error has a code other than OK. -/
theorem commandErrorsChangeNothing : Obligations.CommandErrorsChangeNothing := by
  intro c s
  rcases takeCommand_answer_cases c s with ⟨k, e, hk⟩ | ⟨d, t, e, hout, hft⟩ | ⟨hout, hft⟩
  · rw [e]
    refine ⟨fun r hr _ => ?_, id⟩
    obtain rfl : { code := k, data := .none } = r := by simpa using hr
    exact ⟨rfl, hk⟩
  · rw [e]
    refine ⟨fun r hr hcode => ?_, hft⟩
    obtain rfl : { code := .ok, data := d } = r := by simpa [hout] using hr
    exact absurd rfl hcode
  · rw [hft]
    exact ⟨fun r hr => by simp [hout] at hr, id⟩

/-! ### Steps during and between runs (R170) -/

/-- Settles O38: a run's step is its end or one instruction, and neither touches these fields. -/
theorem masksAndProgramAreConstantDuringARun : Obligations.MasksAndProgramAreConstantDuringARun := by
  intro s t hr h
  rcases step_cases h with ⟨-, -, rfl⟩ | ⟨-, w, i, -, -, hx⟩ | ⟨hidle, -⟩
  · exact ⟨rfl, rfl, rfl, rfl⟩
  · obtain ⟨hparams, hmasks, hprog, hinbox⟩ := exec_sameSetting hx
    exact ⟨hmasks, hprog, hinbox, hparams⟩
  · simp [hr] at hidle

theorem step_of_idle {s : State} (hr : s.running = false) (hb : s.inbox = []) : step s = .next s := by
  simp [step, hr, serveHost, hb]

/-- Settles O43: with no command waiting the step is idle, otherwise it takes the first of the list. -/
theorem stepTakesTheOldestCommand : Obligations.StepTakesTheOldestCommand :=
  fun _ hr => ⟨step_of_idle hr, fun _ _ => step_of_command hr⟩

end Sys2Proof.Machine

/-! ## Faults

What fault entry writes, which fault an opcode can raise, and that a fault stays until a `reset`
(spec/60_exceptions.md R180 to R187). -/

namespace Sys2Proof.Machine

/-! ### The kinds and their codes (R180, R185) -/

theorem FaultKind.code_toNat_eq_number (f : FaultKind) : f.code.toNat = f.response.number := by
  cases f <;> rfl

/-- R180, R182: the code and the response of each of the four kinds. -/
theorem FaultKind.code_response_mem (f : FaultKind) : (f.code, f.response) ∈
    [((1 : BitVec 3), ResponseCode.invalidRegister), (2, .outOfBoundsAccess), (3, .divideByZero),
      (4, .unsupportedInstruction)] := by
  cases f <;> decide

/-- Settles O29: the eight numbers are the table's, and each kind has its response's number. -/
theorem codesAreNumbered : Obligations.CodesAreNumbered :=
  ⟨rfl, rfl, rfl, rfl, rfl, rfl, rfl, rfl, FaultKind.code_toNat_eq_number⟩

/-! ### Fault entry (R182) -/

/-- Settles O28: an instruction moves on or enters a fault, and the kinds are the four of the table. -/
theorem faultEntryWritesTheRecord : Obligations.FaultEntryWritesTheRecord := by
  intro i s
  obtain ⟨t, hx⟩ := exec_answers_next i s
  refine ⟨t, hx, ?_⟩
  rcases exec_control hx with hnext | ⟨f, hfault⟩
  · exact .inl hnext
  · refine .inr ⟨f.code, f.response, f.code_response_mem, ?_⟩
    rw [hfault]
    exact ⟨rfl, rfl, rfl, rfl, rfl, rfl, rfl, rfl, rfl⟩

/-! ### The fault an opcode can raise (R187) -/

/-- A lane loop that runs to its end leaves FAULTED as it was. -/
theorem faulted_of_laneLoop_done {i : Instr} {xs : List Nat} {s u : State}
    (h : laneLoop (uint i.dst) (laneOp i) xs s = .done u) : u.faulted = s.faulted := by
  have hcontrol := (loop_sameControl i xs s).eq
  rw [h, LoopEnd.state] at hcontrol
  rw [hcontrol]

/-- R187: a fault taken past validation is one that the lane operation raised. -/
theorem exec_fault_raised_by_laneOp {i : Instr} {s t : State} (hf : s.faulted = false)
    (hv : i.validFor s.params.numRegs = true) (hx : exec i s = .next t) (ht : t.faulted = true) :
    ∃ f l u, laneOp i l u = .error f ∧ t.faultKind = f.code := by
  rcases exec_cases hx with ⟨hinvalid, -⟩ | ⟨-, u, rfl, hu⟩ | ⟨-, f, u, rfl, hu⟩
  · simp [hv] at hinvalid
  · simp [faulted_of_laneLoop_done hu, hf] at ht
  · obtain ⟨l, v, he⟩ := laneLoop_raised (fun f => ∃ l v, laneOp i l v = .error f) (fun l v _ he => ⟨l, v, he⟩) hu
    exact ⟨f, l, v, he, rfl⟩

/-- Settles O30: the fault comes from the lane operation, and the opcode decides what that can raise. -/
theorem opcodeDecidesTheFaultKind : Obligations.OpcodeDecidesTheFaultKind := by
  intro i s t hf hv hx ht
  obtain ⟨f, l, u, he, hkind⟩ := exec_fault_raised_by_laneOp hf hv hx ht
  rcases laneOp_error he with ⟨rfl, hopc⟩ | ⟨rfl, hopc⟩ | ⟨rfl, hopc⟩
  · exact .inl ⟨hopc, hkind⟩
  · exact .inr (.inl ⟨hopc, hkind⟩)
  · exact .inr (.inr ⟨hopc, hkind⟩)

/-! ### A fault stays (R184) -/

/-- R184: while FAULTED is 1 a command other than `reset` only responds. -/
theorem takeCommand_of_faulted {c : Command} {s : State} (hf : s.faulted = true) (hc : c ≠ .reset) :
    ∃ k d, takeCommand c s = State.respond k d s := by
  rcases takeCommand_cases c s with hresp | ⟨hreset, -⟩ | ⟨_, _, -, hno, -⟩ | ⟨_, -, hno, -⟩ | ⟨-, hno, -⟩
  · exact hresp
  · exact absurd hreset hc
  all_goals simp [hf] at hno

/-- R184: between runs, with FAULTED set and no `reset` waiting, a step changes only the two queues, and brings no
`reset`. -/
theorem step_of_faulted {s t : State} (hf : s.faulted = true) (hr : s.running = false)
    (hreset : Command.reset ∉ s.inbox) (h : step s = .next t) :
    t = { s with inbox := t.inbox, outbox := t.outbox } ∧ Command.reset ∉ t.inbox := by
  cases hb : s.inbox with
  | nil =>
    cases (step_of_idle hr hb).symm.trans h
    exact ⟨rfl, hreset⟩
  | cons c cs =>
    rw [hb, List.mem_cons, not_or] at hreset
    obtain ⟨hc, hcs⟩ := hreset
    cases (step_of_command hr hb).symm.trans h
    obtain ⟨k, d, e⟩ := takeCommand_of_faulted (s := { s with inbox := cs }) hf (Ne.symm hc)
    rw [e]
    exact ⟨rfl, hcs⟩

/-- R184: the same over any number of steps. -/
theorem reaches_of_faulted {n : Nat} {s t : State} (hf : s.faulted = true) (hr : s.running = false)
    (hreset : Command.reset ∉ s.inbox) (h : Reaches n s t) : t = { s with inbox := t.inbox, outbox := t.outbox } := by
  induction n generalizing s with
  | zero => rw [reaches_zero.mp h]
  | succ n ih =>
    obtain ⟨u, hstep, hrest⟩ := reaches_succ.mp h
    obtain ⟨hu, hreset'⟩ := step_of_faulted hf hr hreset hstep
    have hfu : u.faulted = true := by rw [hu]; exact hf
    have hru : u.running = false := by rw [hu]; exact hr
    have ht := ih hfu hru hreset' hrest
    rw [ht, hu]

/-- Settles O31: the three refusals, and every step taken with FAULTED set and no `reset` waiting. -/
theorem faultIsSticky : Obligations.FaultIsSticky := by
  intro s hinv hf
  obtain ⟨-, hr⟩ := hinv.record.ended hf
  refine ⟨?_, fun n t hreset h => reaches_of_faulted hf hr hreset h⟩
  rintro c (rfl | ⟨r, m, rfl⟩ | ⟨w, rfl⟩)
  · exact takeCommand_executeAll_of_faulted hf
  · exact takeCommand_installMask_of_faulted hf
  · exact takeCommand_append_of_faulted hf

end Sys2Proof.Machine

/-! ## Reset

R200 (spec/70_reset_and_hazards.md): the reset state meets the invariant, and each piece of state stands at its
reset value. -/

namespace Sys2Proof.Machine

/-! ### The invariant at reset -/

/-- R7: the reference parameters are in the ranges R7 gives. -/
theorem reference_legal : Config.reference.legal = true := by decide

/-- Settles O39: the reference parameters are legal, and legal parameters give a reset state that meets the invariant. -/
theorem resetMeetsTheInvariant : Obligations.ResetMeetsTheInvariant :=
  ⟨resetWith_inv reference_legal, fun _ => resetWith_inv⟩

/-! ### Reading the reset state -/

/-- A table whose rows all hold the default reads as the default everywhere, inside it and outside. -/
theorem getD_getD_replicate {α : Type} (n m r i : Nat) (d : α) :
    ((List.replicate n (List.replicate m d)).getD r []).getD i d = d := by
  by_cases hr : r < n
  · rw [List.getD_replicate _ hr, List.getD_eq_getElem?_getD, List.getElem?_getD_replicate_default_eq]
  · rw [List.getD_eq_default (n := r) _ _ (by simpa using hr), List.getD_nil]

/-- R20: every register lane is 0 after reset. -/
theorem resetWith_lane (p : Params) (r i : Nat) : (State.resetWith p).lane r i = 0#32 :=
  getD_getD_replicate p.numRegs p.numLanes r i 0#32

/-- R23: every mask bit is 0 after reset. -/
theorem resetWith_maskBit (p : Params) (r i : Nat) : (State.resetWith p).maskBit r i = false :=
  getD_getD_replicate p.numRegs p.numLanes r i false

/-- Settles O44: lanes and mask bits by the two readings of a constant table, every other field as `resetWith` sets it. -/
theorem resetStateIsAllZero : Obligations.ResetStateIsAllZero := by
  intro p
  have hregs : (State.resetWith p).regs.length = p.numRegs := List.length_replicate
  have hmasks : (State.resetWith p).masks.length = p.numRegs := List.length_replicate
  exact ⟨rfl, hregs, hmasks, resetWith_lane p, resetWith_maskBit p, fun _ => rfl, rfl, rfl, rfl, rfl, rfl, rfl, rfl⟩

end Sys2Proof.Machine
